-- ==== Sys2Proof/Word.lean ====
section
/-! DEFINITION. The words of the machine: bytes, 32-bit elements, 128-bit lanes, full vector registers, addresses
(00_scope.md R7: every value is a bit vector of stated width, bit 0 the least significant). -/

namespace Sys2Proof

/-- One byte. -/
abbrev Byte := BitVec 8

/-- One 32-bit element; an opaque pattern, never interpreted (R11, R106). -/
abbrev Elem := BitVec 32

/-- One 128-bit lane, "input quadruplet" of four elements (R11). -/
abbrev Lane := BitVec 128

/-- A vector register or vector value at the largest length; a shorter value is zero-extended to it. -/
abbrev Vec := BitVec 512

/-- A linear or effective address, and a general register (R27, R76). -/
abbrev Addr := BitVec 64

/-- The number of a vector register, `R' ++ R ++ reg` at its widest (R72). -/
abbrev VReg := BitVec 5

/-- The number of a general register, `B ++ rm` or `X ++ index` (R76). -/
abbrev GReg := BitVec 4

/-- The number of an opmask register, `EVEX.aaa` (R25, R74). -/
abbrev KReg := BitVec 3

end Sys2Proof
end

