-- ==== Sys2Proof/Config.lean ====
section
/-! DEFINITION. The configuration record of 00_scope.md R4 as plain data (it is a field of State that no step changes,
so that a statement over every state holds for every configuration, log 1), and the model's one free value. -/

namespace Sys2Proof

/-- A vector length: VL of a form (R6), or MAXVL of a configuration (R4). -/
inductive VL where
  | v128
  | v256
  | v512
  deriving DecidableEq, Repr

/-- The length in bits. -/
def VL.bits : VL → Nat
  | .v128 => 128
  | .v256 => 256
  | .v512 => 512

/-- KL, the number of 32-bit elements, `VL / 32` (R6). -/
def VL.kl : VL → Nat
  | .v128 => 4
  | .v256 => 8
  | .v512 => 16

/-- The number of 128-bit lanes, `VL / 128` (R102). -/
def VL.lanes : VL → Nat
  | .v128 => 1
  | .v256 => 2
  | .v512 => 4

/-- The size in bytes of a full-width memory operand, `VL / 8` (R43). -/
def VL.bytes : VL → Nat
  | .v128 => 16
  | .v256 => 32
  | .v512 => 64

/-- FEATURES: which of the four CPUID flags the processor reports and system software has enabled (R2, R4, R158). -/
structure Features where
  sse : Bool
  avx : Bool
  avx512f : Bool
  avx512vl : Bool
  deriving DecidableEq, Repr

/-- The configuration record (R4), but for EnvFault (the field `env` of State, log 4). -/
structure Config where
  /-- FEATURES (R4, R158). -/
  features : Features
  /-- MAXVL (R4, R5). -/
  maxvl : VL
  /-- MODE64: 64-bit mode if true, else 32-bit mode (R3, R4). -/
  mode64 : Bool
  /-- AW: the width in bits of a linear address (R4); at most 64 here (log 16). -/
  aw : Nat
  /-- NVEC: the number of vector registers (R20, R23). What a mode and form can name of them is `nvec` (log 12). -/
  nvec : Nat
  /-- NMASK: the number of opmask registers (R24). -/
  nmask : Nat
  /-- MASKW: the width in bits of an opmask register (R24). -/
  maskw : Nat
  deriving DecidableEq, Repr

/-- The MAXVL that features imply (R5, by the spec's decision D3): 512 with AVX512F, else 256 with AVX, else 128. -/
def Features.impliedMaxvl (f : Features) : VL :=
  if f.avx512f then .v512 else if f.avx then .v256 else .v128

/-- MAXVL is at least the VL of every form the features support (R5): a vector result fits its register. -/
def Config.fitsForms (c : Config) : Bool := decide (c.features.impliedMaxvl.bits ≤ c.maxvl.bits)

/-- The constraints on the parameters: MAXVL is the one the features imply (R5, D3) and MASKW is at least 16 (R24). The
upper bounds are those of the words and register files that hold the state (log 1, log 12, log 16). -/
def Config.wf (c : Config) : Bool :=
  decide (c.maxvl = c.features.impliedMaxvl) && decide (c.aw ≤ 64) && decide (c.nvec ≤ 32) && decide (c.nmask ≤ 8) &&
  decide (16 ≤ c.maskw) && decide (c.maskw ≤ 64)

/-- A segment register (R27, R88). -/
inductive Seg where
  | es
  | cs
  | ss
  | ds
  | fs
  | gs
  deriving DecidableEq, Repr

/-- FREE VALUE (log 15). Which of an instruction's segment overrides is in use when it carries different ones that
all have an effect: 30_encoding.md R76 says "the segment of an override prefix" and R88 gives no rule for two. The
number is taken modulo the length of the list, so that one of the overrides is in use, nobody knows which. -/
opaque Config.overrideChoice : List Seg → Nat

end Sys2Proof
end

