-- ==== Sys2Proof/Syntax.lean ====
section
/-! DEFINITION. The instruction as a decoded record (00_scope.md R12): one constructor per row of
spec/opcode_table.json (30_encoding.md R81). The memory operand is kept as its addressing form (R76), so that the
length of the instruction (R83) and the linear address of the operand can be computed from the record. -/

namespace Sys2Proof

/-- A legacy prefix byte that may precede any form (R88): a segment override, or the address-size byte 67 (R77). -/
inductive LegacyPrefix where
  | seg (s : Seg)
  | addrSize
  deriving DecidableEq, Repr

/-- A displacement as it stands in the instruction: none, one byte, or four bytes (R76, R78). -/
inductive Disp where
  | absent
  | d8 (v : BitVec 8)
  | d32 (v : BitVec 32)
  deriving DecidableEq, Repr

/-- The index register of a SIB byte and its scale code `ss` (R67). -/
structure Index where
  reg : GReg
  ss : BitVec 2
  deriving DecidableEq, Repr

/-- A memory operand by its addressing form (R76). -/
inductive MemOperand where
  /-- `rm != 100`: `GPR[B ++ rm] + disp`. -/
  | base (b : GReg) (disp : Disp)
  /-- `mod = 00`, `rm = 101`: RIP-relative in 64-bit mode, `disp32` alone in 32-bit mode (R76, R77). -/
  | ripRel (disp : BitVec 32)
  /-- A SIB byte with a base register. -/
  | sib (b : GReg) (index : Option Index) (disp : Disp)
  /-- A SIB byte with `mod = 00` and `base = 101`: no base register, a `disp32`. -/
  | sibNoBase (index : Option Index) (disp : BitVec 32)
  deriving DecidableEq, Repr

/-- The operand in `ModRM:r/m`: a register (`mod = 11`) or memory (R62, R66). -/
inductive RM where
  | reg (r : VReg)
  | mem (m : MemOperand)
  deriving DecidableEq, Repr

/-- The six encoded forms (R1, R60). -/
inductive Form where
  | shufps
  | vex128
  | vex256
  | evex128
  | evex256
  | evex512
  deriving DecidableEq, Repr

/-- One instruction: one constructor per row of the opcode table (R81). `pre` are the legacy prefix bytes in order
(R88), `rex` says whether a REX byte is present (R68), `d` is the destination, `s1` the first source, `src` the second
source (R62), `mask` the writemask register (`none` is "no writemask", R25), `z` zeroing-masking (R74), `b` EVEX.b (R75). -/
inductive Instr where
  /-- Row 1: SHUFPS, `[REX] 0F C6 /r ib` (R110). -/
  | shufps (pre : List LegacyPrefix) (rex : Bool) (d : VReg) (src : RM) (imm8 : BitVec 8)
  /-- Row 2: VSHUFPS VEX.128 with the two-byte prefix C5 (R121). -/
  | vshufpsVex128C5 (pre : List LegacyPrefix) (d s1 : VReg) (src : RM) (imm8 : BitVec 8)
  /-- Row 3: VSHUFPS VEX.128 with the three-byte prefix C4 (R121). -/
  | vshufpsVex128C4 (pre : List LegacyPrefix) (d s1 : VReg) (src : RM) (imm8 : BitVec 8)
  /-- Row 4: VSHUFPS VEX.256 with the two-byte prefix C5 (R122). -/
  | vshufpsVex256C5 (pre : List LegacyPrefix) (d s1 : VReg) (src : RM) (imm8 : BitVec 8)
  /-- Row 5: VSHUFPS VEX.256 with the three-byte prefix C4 (R122). -/
  | vshufpsVex256C4 (pre : List LegacyPrefix) (d s1 : VReg) (src : RM) (imm8 : BitVec 8)
  /-- Row 6: VSHUFPS EVEX.128 (R136). -/
  | vshufpsEvex128 (pre : List LegacyPrefix) (d s1 : VReg) (src : RM) (imm8 : BitVec 8) (mask : Option KReg) (z b : Bool)
  /-- Row 7: VSHUFPS EVEX.256 (R137). -/
  | vshufpsEvex256 (pre : List LegacyPrefix) (d s1 : VReg) (src : RM) (imm8 : BitVec 8) (mask : Option KReg) (z b : Bool)
  /-- Row 8: VSHUFPS EVEX.512 (R138). -/
  | vshufpsEvex512 (pre : List LegacyPrefix) (d s1 : VReg) (src : RM) (imm8 : BitVec 8) (mask : Option KReg) (z b : Bool)
  deriving DecidableEq, Repr

/-- The decoded record of 00_scope.md R12, `(form, dest, src1, src2, imm8, mask, z)`, with the broadcast flag of the
second source (R75) and the legacy prefixes its address depends on (R77, R88). The length is `Instr.len` (R86). -/
structure Record where
  form : Form
  dest : VReg
  src1 : VReg
  src2 : RM
  bcst : Bool
  imm8 : BitVec 8
  mask : Option KReg
  z : Bool
  pre : List LegacyPrefix
  deriving DecidableEq, Repr

/-- The exception class of a form (60_exceptions.md R151): Type 4 for the non-EVEX forms, Type E4NF for the EVEX forms. -/
inductive ExcClass where
  | type4
  | e4nf
  deriving DecidableEq, Repr

end Sys2Proof
end

