-- ==== Sys2Proof/Decode.lean ====
section
/-! DEFINITION. The decoder (30_encoding.md R63 to R88, 64-bit mode), total on any bytes and rejecting by name, the
record and the length of an instruction, the opcode table's rows (R81), and the encoder written from the same layouts.
Everything here but the opcode byte, the map, the lengths VL and W is GK in the spec (D10, log 22). -/

namespace Sys2Proof

/-! ## The record, the form and the length -/

/-- The decoded record of an instruction (R12). The legacy form's first source is its destination (R62, R72). -/
def Instr.record : Instr → Record
  | .shufps pre _ d src imm8 => ⟨.shufps, d, d, src, false, imm8, none, false, pre⟩
  | .vshufpsVex128C5 pre d s1 src imm8 => ⟨.vex128, d, s1, src, false, imm8, none, false, pre⟩
  | .vshufpsVex128C4 pre d s1 src imm8 => ⟨.vex128, d, s1, src, false, imm8, none, false, pre⟩
  | .vshufpsVex256C5 pre d s1 src imm8 => ⟨.vex256, d, s1, src, false, imm8, none, false, pre⟩
  | .vshufpsVex256C4 pre d s1 src imm8 => ⟨.vex256, d, s1, src, false, imm8, none, false, pre⟩
  | .vshufpsEvex128 pre d s1 src imm8 mask z b => ⟨.evex128, d, s1, src, b, imm8, mask, z, pre⟩
  | .vshufpsEvex256 pre d s1 src imm8 mask z b => ⟨.evex256, d, s1, src, b, imm8, mask, z, pre⟩
  | .vshufpsEvex512 pre d s1 src imm8 mask z b => ⟨.evex512, d, s1, src, b, imm8, mask, z, pre⟩

/-- The form of an instruction (R60). -/
def Instr.form (i : Instr) : Form := i.record.form

/-- VL of a form (R73). -/
def Form.vl : Form → VL
  | .shufps => .v128
  | .vex128 => .v128
  | .vex256 => .v256
  | .evex128 => .v128
  | .evex256 => .v256
  | .evex512 => .v512

/-- Whether a form is EVEX-encoded (R60). -/
def Form.isEvex : Form → Bool
  | .shufps => false
  | .vex128 => false
  | .vex256 => false
  | .evex128 => true
  | .evex256 => true
  | .evex512 => true

/-- The exception class of a form (60_exceptions.md R151, R156). -/
def Form.excClass (f : Form) : ExcClass :=
  if f.isEvex then .e4nf else .type4

/-- The number of bytes of a displacement: D of R83. -/
def Disp.len : Disp → Nat
  | .absent => 0
  | .d8 _ => 1
  | .d32 _ => 4

/-- The SIB and displacement bytes of a memory operand: S + D of R83. -/
def MemOperand.len : MemOperand → Nat
  | .base _ disp => disp.len
  | .ripRel _ => 4
  | .sib _ _ disp => 1 + disp.len
  | .sibNoBase _ _ => 5

/-- The ModRM byte and what follows it before imm8. -/
def RM.len : RM → Nat
  | .reg _ => 1
  | .mem m => 1 + m.len

/-- The length in bytes of an instruction (R83, R86). -/
def Instr.len : Instr → Nat
  | .shufps pre rex _ src _ => pre.length + (if rex then 1 else 0) + 2 + src.len + 1
  | .vshufpsVex128C5 pre _ _ src _ => pre.length + 2 + 1 + src.len + 1
  | .vshufpsVex128C4 pre _ _ src _ => pre.length + 3 + 1 + src.len + 1
  | .vshufpsVex256C5 pre _ _ src _ => pre.length + 2 + 1 + src.len + 1
  | .vshufpsVex256C4 pre _ _ src _ => pre.length + 3 + 1 + src.len + 1
  | .vshufpsEvex128 pre _ _ src _ _ _ _ => pre.length + 4 + 1 + src.len + 1
  | .vshufpsEvex256 pre _ _ src _ _ _ _ => pre.length + 4 + 1 + src.len + 1
  | .vshufpsEvex512 pre _ _ src _ _ _ _ => pre.length + 4 + 1 + src.len + 1

/-- The longest instruction, in bytes (R83). -/
def maxLen : Nat := 15

/-! ## Register numbers and field combinations -/

/-- Every general register the operand names is below `n`. -/
def MemOperand.gprsBelow (n : Nat) : MemOperand → Bool
  | .base b _ => decide (b.toNat < n)
  | .ripRel _ => true
  | .sib b idx _ => decide (b.toNat < n) && idx.all (fun i => decide (i.reg.toNat < n))
  | .sibNoBase idx _ => idx.all (fun i => decide (i.reg.toNat < n))

/-- Every register the r/m operand names is below `n` (vector) and `m` (general). -/
def RM.regsBelow (n m : Nat) : RM → Bool
  | .reg r => decide (r.toNat < n)
  | .mem a => a.gprsBelow m

/-- Whether an r/m operand is memory (R66, R79). -/
def RM.isMem : RM → Bool
  | .reg _ => false
  | .mem _ => true

/-- The writemask, zeroing and broadcast fields are no reserved combination (R25, R87, R134): K[0] is no writemask,
`{z}` needs a writemask, EVEX.b needs a memory operand. -/
def evexFieldsOk (src : RM) (mask : Option KReg) (z b : Bool) : Bool :=
  mask != some 0 && (!z || mask.isSome) && (!b || src.isMem)

/-! ## What a byte sequence that is no instruction of this spec is -/

/-- The reserved encodings of R87 for which the spec's table says #UD. -/
inductive ReservedEncoding where
  /-- EVEX with `W = 1`. -/
  | evexW
  /-- EVEX with `b = 1` and a register second source. -/
  | evexBroadcastRegister
  /-- EVEX with `z = 1` and `aaa = 000`. -/
  | evexZeroingNoMask
  /-- EVEX with `L'L = 11`. -/
  | evexLength
  /-- EVEX with `P0[3:2] != 00` or `P1[2] = 0`. -/
  | evexFixedBits
  /-- A `66`, `F2`, `F3`, `F0` or REX byte before a VEX or EVEX prefix. -/
  | byteBeforeVex
  /-- `F2`, `F3` or `F0` before the legacy form. -/
  | byteBeforeLegacy
  deriving DecidableEq, Repr

/-- Why bytes decode to no instruction. -/
inductive DecodeError where
  /-- The bytes end inside the instruction. -/
  | truncated
  /-- More than 15 bytes (R83). -/
  | tooLong
  /-- Another opcode, map or `pp`, or SHUFPD: not an instruction of this spec (R87). -/
  | otherInstruction
  /-- A reserved encoding (R87). -/
  | reserved (r : ReservedEncoding)
  deriving DecidableEq, Repr

/-! ## Prefix bytes (R68, R87, R88) -/

/-- A byte that may stand before the opcode or the VEX or EVEX prefix, allowed or not. -/
inductive RawPrefix where
  | allowed (p : LegacyPrefix)
  /-- The byte `66`. -/
  | opSize
  /-- One of `F0`, `F2`, `F3`. -/
  | lockOrRep
  /-- A REX byte before a VEX or EVEX prefix. -/
  | rexByte
  deriving DecidableEq, Repr

/-- The prefix a byte is, if it is one (R87, R88). -/
def rawPrefixOf (v : Byte) : Option RawPrefix :=
  if v = 0x26 then some (.allowed (.seg .es))
  else if v = 0x2E then some (.allowed (.seg .cs))
  else if v = 0x36 then some (.allowed (.seg .ss))
  else if v = 0x3E then some (.allowed (.seg .ds))
  else if v = 0x64 then some (.allowed (.seg .fs))
  else if v = 0x65 then some (.allowed (.seg .gs))
  else if v = 0x67 then some (.allowed .addrSize)
  else if v = 0x66 then some .opSize
  else if v = 0xF0 then some .lockOrRep
  else if v = 0xF2 then some .lockOrRep
  else if v = 0xF3 then some .lockOrRep
  else none

/-- The prefix bytes at the head of the bytes, and the rest. -/
def takePrefixes : List Byte → List RawPrefix × List Byte
  | [] => ([], [])
  | v :: vs =>
    match rawPrefixOf v with
    | none => ([], v :: vs)
    | some p => (p :: (takePrefixes vs).1, (takePrefixes vs).2)

/-- The legacy prefix in a raw prefix, if R88 allows it. -/
def RawPrefix.legacy? : RawPrefix → Option LegacyPrefix
  | .allowed p => some p
  | .opSize => none
  | .lockOrRep => none
  | .rexByte => none

/-- The prefixes R88 allows, in order. -/
def allowedPrefixes (raw : List RawPrefix) : List LegacyPrefix :=
  raw.filterMap RawPrefix.legacy?

/-! ## ModRM, SIB and displacement (R66, R67, R76, R78) -/

/-- Four bytes, least significant first (R78). -/
def take32 : List Byte → Except DecodeError (BitVec 32 × List Byte)
  | b0 :: b1 :: b2 :: b3 :: vs => .ok (b3 ++ b2 ++ b1 ++ b0, vs)
  | _ => .error .truncated

/-- The displacement that `mod` announces: none, disp8 or disp32 (R66). -/
def takeDisp (mod : BitVec 2) (vs : List Byte) : Except DecodeError (Disp × List Byte) :=
  if mod = 0 then .ok (.absent, vs)
  else if mod = 1 then
    match vs with
    | [] => .error .truncated
    | v :: vs => .ok (.d8 v, vs)
  else do
    let (v, vs) ← take32 vs
    return (.d32 v, vs)

/-- One bit as a one-bit vector. -/
abbrev bit (v : Bool) : BitVec 1 := BitVec.ofBool v

/-- The SIB byte and displacement of a memory operand (R67, R76), with the extension bits X and B. -/
def takeSib (x b : Bool) (mod : BitVec 2) : List Byte → Except DecodeError (MemOperand × List Byte)
  | [] => .error .truncated
  | v :: vs =>
    let index : GReg := bit x ++ v.extractLsb' 3 3
    let idx : Option Index := if index = 4 then none else some ⟨index, v.extractLsb' 6 2⟩
    if mod = 0 ∧ v.extractLsb' 0 3 = 5 then do
      let (disp, vs) ← take32 vs
      return (.sibNoBase idx disp, vs)
    else do
      let (disp, vs) ← takeDisp mod vs
      return (.sib (bit b ++ v.extractLsb' 0 3) idx disp, vs)

/-- The memory operand of a ModRM byte with `mod != 11` (R76). -/
def takeMem (x b : Bool) (mod : BitVec 2) (rm : BitVec 3) (vs : List Byte) : Except DecodeError (MemOperand × List Byte) :=
  if rm = 4 then takeSib x b mod vs
  else if mod = 0 ∧ rm = 5 then do
    let (disp, vs) ← take32 vs
    return (.ripRel disp, vs)
  else do
    let (disp, vs) ← takeDisp mod vs
    return (.base (bit b ++ rm) disp, vs)

/-- The ModRM byte and what belongs to it: the `reg` field, the r/m operand and the rest (R66, R72). `x` and `b` are
the true values of the extension bits; `xReg` is X as bit 4 of a register operand, false outside EVEX. -/
def takeModRM (x b xReg : Bool) : List Byte → Except DecodeError (BitVec 3 × RM × List Byte)
  | [] => .error .truncated
  | v :: vs =>
    if v.extractLsb' 6 2 = 3 then
      .ok (v.extractLsb' 3 3, .reg (bit xReg ++ bit b ++ v.extractLsb' 0 3), vs)
    else do
      let (m, vs) ← takeMem x b (v.extractLsb' 6 2) (v.extractLsb' 0 3) vs
      return (v.extractLsb' 3 3, .mem m, vs)

/-- One byte. -/
def takeByte : List Byte → Except DecodeError (Byte × List Byte)
  | [] => .error .truncated
  | v :: vs => .ok (v, vs)

/-- A decoding error where a test fails. -/
def rejectIf (c : Bool) (e : DecodeError) : Except DecodeError Unit := if c then .error e else .ok ()

/-! ## The forms (R69 to R75, R81, R82) -/

/-- After `0F`: the legacy form's opcode byte and operands (R63, R68, R81 row 1). `rex` is the REX byte, if any. -/
def takeLegacy (raw : List RawPrefix) (rex : Option Byte) (vs : List Byte) : Except DecodeError (Instr × List Byte) := do
  let (op, vs) ← takeByte vs
  rejectIf (op != 0xC6 || raw.contains .opSize) .otherInstruction
  let v : Byte := rex.getD 0
  let (reg, src, vs) ← takeModRM (v.getLsbD 1) (v.getLsbD 0) false vs
  let (imm8, vs) ← takeByte vs
  rejectIf (raw.contains .lockOrRep) (.reserved .byteBeforeLegacy)
  return (.shufps (allowedPrefixes raw) rex.isSome (bit false ++ bit (v.getLsbD 2) ++ reg) src imm8, vs)

/-- The prefixes before a VEX or EVEX prefix are all allowed ones (R87). -/
def vexPrefixesOk (raw : List RawPrefix) : Bool :=
  raw.all fun p => p.legacy?.isSome

/-- After `C5`: the two-byte VEX prefix (R70, R81 rows 2 and 4). -/
def takeVexC5 (raw : List RawPrefix) (vs : List Byte) : Except DecodeError (Instr × List Byte) := do
  let (p, vs) ← takeByte vs
  let (op, vs) ← takeByte vs
  rejectIf (op != 0xC6 || p.extractLsb' 0 2 != 0) .otherInstruction
  let (reg, src, vs) ← takeModRM false false false vs
  let (imm8, vs) ← takeByte vs
  rejectIf (!vexPrefixesOk raw) (.reserved .byteBeforeVex)
  let d : VReg := bit false ++ bit (!p.getLsbD 7) ++ reg
  let s1 : VReg := bit false ++ ~~~(p.extractLsb' 3 4)
  return (if p.getLsbD 2 then .vshufpsVex256C5 (allowedPrefixes raw) d s1 src imm8
    else .vshufpsVex128C5 (allowedPrefixes raw) d s1 src imm8, vs)

/-- After `C4`: the three-byte VEX prefix (R69, R81 rows 3 and 5); W is ignored (R84). -/
def takeVexC4 (raw : List RawPrefix) (vs : List Byte) : Except DecodeError (Instr × List Byte) := do
  let (p1, vs) ← takeByte vs
  let (p2, vs) ← takeByte vs
  let (op, vs) ← takeByte vs
  rejectIf (op != 0xC6 || p1.extractLsb' 0 5 != 1 || p2.extractLsb' 0 2 != 0) .otherInstruction
  let (reg, src, vs) ← takeModRM (!p1.getLsbD 6) (!p1.getLsbD 5) false vs
  let (imm8, vs) ← takeByte vs
  rejectIf (!vexPrefixesOk raw) (.reserved .byteBeforeVex)
  let d : VReg := bit false ++ bit (!p1.getLsbD 7) ++ reg
  let s1 : VReg := bit false ++ ~~~(p2.extractLsb' 3 4)
  return (if p2.getLsbD 2 then .vshufpsVex256C4 (allowedPrefixes raw) d s1 src imm8
    else .vshufpsVex128C4 (allowedPrefixes raw) d s1 src imm8, vs)

/-- The writemask that `EVEX.aaa` names (R74): `000` is no writemask. -/
def maskOf (aaa : BitVec 3) : Option KReg :=
  if aaa = 0 then none else some aaa

/-- The reserved EVEX encodings of R87, in the order its table lists them. -/
def evexReserved (raw : List RawPrefix) (p0 p1 p2 : Byte) (src : RM) : Option ReservedEncoding :=
  if p1.getLsbD 7 then some .evexW
  else if p2.getLsbD 4 ∧ src.isMem = false then some .evexBroadcastRegister
  else if p2.getLsbD 7 ∧ p2.extractLsb' 0 3 = 0 then some .evexZeroingNoMask
  else if p2.extractLsb' 5 2 = 3 then some .evexLength
  else if p0.extractLsb' 2 2 ≠ 0 ∨ p1.getLsbD 2 = false then some .evexFixedBits
  else if !vexPrefixesOk raw then some .byteBeforeVex
  else none

/-- After `62`: the EVEX prefix (R71, R81 rows 6 to 8). -/
def takeEvex (raw : List RawPrefix) (vs : List Byte) : Except DecodeError (Instr × List Byte) := do
  let (p0, vs) ← takeByte vs
  let (p1, vs) ← takeByte vs
  let (p2, vs) ← takeByte vs
  let (op, vs) ← takeByte vs
  rejectIf (op != 0xC6 || p0.extractLsb' 0 2 != 1 || p1.extractLsb' 0 2 != 0) .otherInstruction
  let (reg, src, vs) ← takeModRM (!p0.getLsbD 6) (!p0.getLsbD 5) (!p0.getLsbD 6) vs
  let (imm8, vs) ← takeByte vs
  match evexReserved raw p0 p1 p2 src with
  | some r => .error (.reserved r)
  | none =>
    let pre := allowedPrefixes raw
    let d : VReg := bit (!p0.getLsbD 4) ++ bit (!p0.getLsbD 7) ++ reg
    let s1 : VReg := bit (!p2.getLsbD 3) ++ ~~~(p1.extractLsb' 3 4)
    let mask := maskOf (p2.extractLsb' 0 3)
    let z := p2.getLsbD 7
    let b := p2.getLsbD 4
    .ok (if p2.extractLsb' 5 2 = 0 then .vshufpsEvex128 pre d s1 src imm8 mask z b
      else if p2.extractLsb' 5 2 = 1 then .vshufpsEvex256 pre d s1 src imm8 mask z b
      else .vshufpsEvex512 pre d s1 src imm8 mask z b, vs)

/-- The instruction after its prefix bytes (R82). A REX byte is the last byte before `0F` (R88); before a VEX or EVEX
prefix it is a reserved encoding (R87). -/
def takeBody (raw : List RawPrefix) (vs : List Byte) : Except DecodeError (Instr × List Byte) := do
  let (v, vs) ← takeByte vs
  if v = 0x62 then takeEvex raw vs
  else if v = 0xC4 then takeVexC4 raw vs
  else if v = 0xC5 then takeVexC5 raw vs
  else if v = 0x0F then takeLegacy raw none vs
  else if v.extractLsb' 4 4 = 4 then do
    let (w, vs) ← takeByte vs
    if w = 0x62 then takeEvex (raw ++ [.rexByte]) vs
    else if w = 0xC4 then takeVexC4 (raw ++ [.rexByte]) vs
    else if w = 0xC5 then takeVexC5 (raw ++ [.rexByte]) vs
    else if w = 0x0F then takeLegacy raw (some v) vs
    else .error .otherInstruction
  else .error .otherInstruction

/-- One instruction at the head of the bytes, and the bytes after it (R82), whatever its length. -/
def parse (vs : List Byte) : Except DecodeError (Instr × List Byte) :=
  takeBody (takePrefixes vs).1 (takePrefixes vs).2

/-- The decoder: the instruction at the head of the bytes, of which at most 15 are looked at (R82, R83). -/
def decode (vs : List Byte) : Except DecodeError Instr :=
  match parse (vs.take maxLen) with
  | .ok (i, _) => .ok i
  | .error .truncated => .error (if maxLen ≤ vs.length then .tooLong else .truncated)
  | .error e => .error e

/-! ## The opcode table (R81) -/

/-- One decoder row: its fixed bytes, each as its match and its mask, the first byte first. -/
structure Row where
  form : Form
  bytes : List (Byte × Byte)
  deriving DecidableEq, Repr

/-- The eight rows of R81 and of spec/opcode_table.json, in order. -/
def opcodeTable : List Row :=
  [⟨.shufps, [(0x0F, 0xFF), (0xC6, 0xFF)]⟩,
   ⟨.vex128, [(0xC5, 0xFF), (0x00, 0x07), (0xC6, 0xFF)]⟩,
   ⟨.vex128, [(0xC4, 0xFF), (0x01, 0x1F), (0x00, 0x07), (0xC6, 0xFF)]⟩,
   ⟨.vex256, [(0xC5, 0xFF), (0x04, 0x07), (0xC6, 0xFF)]⟩,
   ⟨.vex256, [(0xC4, 0xFF), (0x01, 0x1F), (0x04, 0x07), (0xC6, 0xFF)]⟩,
   ⟨.evex128, [(0x62, 0xFF), (0x01, 0x0F), (0x04, 0x87), (0x00, 0x60), (0xC6, 0xFF)]⟩,
   ⟨.evex256, [(0x62, 0xFF), (0x01, 0x0F), (0x04, 0x87), (0x20, 0x60), (0xC6, 0xFF)]⟩,
   ⟨.evex512, [(0x62, 0xFF), (0x01, 0x0F), (0x04, 0x87), (0x40, 0x60), (0xC6, 0xFF)]⟩]

/-- Bytes match a pattern: `(first bytes of s) AND mask = match` (R81), byte by byte. -/
def matchBytes : List (Byte × Byte) → List Byte → Bool
  | [], _ => true
  | _ :: _, [] => false
  | p :: ps, v :: vs => (v &&& p.2) == p.1 && matchBytes ps vs

/-- "A byte string `s` matches a row" (R81). -/
def Row.hits (r : Row) (vs : List Byte) : Bool := matchBytes r.bytes vs

/-- The row an instruction's constructor stands for. -/
def Instr.row : Instr → Nat
  | .shufps .. => 1
  | .vshufpsVex128C5 .. => 2
  | .vshufpsVex128C4 .. => 3
  | .vshufpsVex256C5 .. => 4
  | .vshufpsVex256C4 .. => 5
  | .vshufpsEvex128 .. => 6
  | .vshufpsEvex256 .. => 7
  | .vshufpsEvex512 .. => 8

/-! ## The words of the table, for `decodeTableWord` and `State.withFetchWord` -/

/-- The `n` low bytes of a number, most significant first. -/
def beBytes : Nat → Nat → List Byte
  | 0, _ => []
  | n + 1, w => BitVec.ofNat 8 (w >>> (8 * n)) :: beBytes n w

/-- The bytes of a table word in address order, then zero bytes up to the longest instruction: the table's numbers
have the first byte most significant (R81, log 23). -/
def tableBytes (nbits w : Nat) : List Byte :=
  beBytes (nbits / 8) w ++ List.replicate (maxLen - nbits / 8) 0

/-- What the decoder reads from a table word. -/
def decodeTableWord (nbits w : Nat) : Option Instr :=
  match decode (tableBytes nbits w) with
  | .ok i => some i
  | .error _ => none

/-! ## The encoder -/

/-- A segment override byte (R88). -/
def Seg.overrideByte : Seg → Byte
  | .es => 0x26
  | .cs => 0x2E
  | .ss => 0x36
  | .ds => 0x3E
  | .fs => 0x64
  | .gs => 0x65

/-- A legacy prefix byte (R88). -/
def LegacyPrefix.byte : LegacyPrefix → Byte
  | .seg s => s.overrideByte
  | .addrSize => 0x67

/-- A displacement's bytes, least significant first (R78). -/
def Disp.bytes : Disp → List Byte
  | .absent => []
  | .d8 v => [v]
  | .d32 v => [v.extractLsb' 0 8, v.extractLsb' 8 8, v.extractLsb' 16 8, v.extractLsb' 24 8]

/-- The `mod` field that announces a displacement (R66). -/
def Disp.mod : Disp → BitVec 2
  | .absent => 0
  | .d8 _ => 1
  | .d32 _ => 2

/-- A ModRM byte (R66); a SIB byte has the same layout of 2, 3 and 3 bits (R67). -/
def modRMByte (mod : BitVec 2) (reg rm : BitVec 3) : Byte := mod ++ reg ++ rm

/-- The `ss` field of a SIB byte; 00 where there is no index. -/
def ssField (index : Option Index) : BitVec 2 :=
  match index with
  | none => 0
  | some i => i.ss

/-- The `index` field of a SIB byte; 100 where there is no index (R76). -/
def indexField (index : Option Index) : BitVec 3 :=
  match index with
  | none => 4
  | some i => i.reg.extractLsb' 0 3

/-- The extension bit X that an index register needs. -/
def indexX (index : Option Index) : Bool :=
  match index with
  | none => false
  | some i => i.reg.getLsbD 3

/-- The ModRM, SIB and displacement bytes of an r/m operand (R66, R67, R76). -/
def RM.bytes (reg : BitVec 3) : RM → List Byte
  | .reg r => [modRMByte 3 reg (r.extractLsb' 0 3)]
  | .mem (.base b disp) => modRMByte disp.mod reg (b.extractLsb' 0 3) :: disp.bytes
  | .mem (.ripRel disp) => modRMByte 0 reg 5 :: (Disp.d32 disp).bytes
  | .mem (.sib b idx disp) =>
    modRMByte disp.mod reg 4 :: modRMByte (ssField idx) (indexField idx) (b.extractLsb' 0 3) :: disp.bytes
  | .mem (.sibNoBase idx disp) =>
    modRMByte 0 reg 4 :: modRMByte (ssField idx) (indexField idx) 5 :: (Disp.d32 disp).bytes

/-- The extension bit B of an r/m operand (R72, R76); 0 where it is unused. -/
def RM.bitB : RM → Bool
  | .reg r => r.getLsbD 3
  | .mem (.base b _) => b.getLsbD 3
  | .mem (.ripRel _) => false
  | .mem (.sib b _ _) => b.getLsbD 3
  | .mem (.sibNoBase _ _) => false

/-- The extension bit X of an r/m operand (R72, R76): bit 4 of a register (EVEX), bit 3 of an index; 0 where unused. -/
def RM.bitX : RM → Bool
  | .reg r => r.getLsbD 4
  | .mem (.base _ _) => false
  | .mem (.ripRel _) => false
  | .mem (.sib _ idx _) => indexX idx
  | .mem (.sibNoBase idx _) => indexX idx

/-- A REX byte `0100WRXB` with W = 0 (R68). -/
def rexByte (r x b : Bool) : Byte := (4 : BitVec 4) ++ bit false ++ bit r ++ bit x ++ bit b

/-- The bytes of a legacy prefix list. -/
def prefixBytes (pre : List LegacyPrefix) : List Byte := pre.map LegacyPrefix.byte

/-- The two-byte VEX prefix (R70). -/
def vexC5Bytes (l : Bool) (d s1 : VReg) : List Byte :=
  [0xC5, bit (!d.getLsbD 3) ++ ~~~(s1.extractLsb' 0 4) ++ bit l ++ (0 : BitVec 2)]

/-- The three-byte VEX prefix with W = 0 (R69). -/
def vexC4Bytes (l : Bool) (d s1 : VReg) (src : RM) : List Byte :=
  [0xC4, bit (!d.getLsbD 3) ++ bit (!src.bitX) ++ bit (!src.bitB) ++ (1 : BitVec 5),
   bit false ++ ~~~(s1.extractLsb' 0 4) ++ bit l ++ (0 : BitVec 2)]

/-- `EVEX.aaa` of a writemask (R74). -/
def aaaField (mask : Option KReg) : BitVec 3 :=
  match mask with
  | none => 0
  | some n => n

/-- The EVEX prefix (R71). -/
def evexBytes (ll : BitVec 2) (d s1 : VReg) (src : RM) (mask : Option KReg) (z b : Bool) : List Byte :=
  [0x62,
   bit (!d.getLsbD 3) ++ bit (!src.bitX) ++ bit (!src.bitB) ++ bit (!d.getLsbD 4) ++ (0 : BitVec 2) ++ (1 : BitVec 2),
   bit false ++ ~~~(s1.extractLsb' 0 4) ++ bit true ++ (0 : BitVec 2),
   bit z ++ ll ++ bit b ++ bit (!s1.getLsbD 4) ++ aaaField mask]

/-- What every form ends with: the opcode byte, the ModRM part and imm8 (R61, R80). -/
def tailBytes (d : VReg) (src : RM) (imm8 : BitVec 8) : List Byte :=
  0xC6 :: (src.bytes (d.extractLsb' 0 3) ++ [imm8])

/-- The bytes of a well-formed instruction (R81); ignored bits are 0 (REX.W, VEX.W, unused X and B, log 26). -/
def encode : Instr → List Byte
  | .shufps pre rex d src imm8 =>
    prefixBytes pre ++ (if rex then [rexByte (d.getLsbD 3) src.bitX src.bitB] else []) ++ 0x0F :: tailBytes d src imm8
  | .vshufpsVex128C5 pre d s1 src imm8 => prefixBytes pre ++ vexC5Bytes false d s1 ++ tailBytes d src imm8
  | .vshufpsVex128C4 pre d s1 src imm8 => prefixBytes pre ++ vexC4Bytes false d s1 src ++ tailBytes d src imm8
  | .vshufpsVex256C5 pre d s1 src imm8 => prefixBytes pre ++ vexC5Bytes true d s1 ++ tailBytes d src imm8
  | .vshufpsVex256C4 pre d s1 src imm8 => prefixBytes pre ++ vexC4Bytes true d s1 src ++ tailBytes d src imm8
  | .vshufpsEvex128 pre d s1 src imm8 mask z b => prefixBytes pre ++ evexBytes 0 d s1 src mask z b ++ tailBytes d src imm8
  | .vshufpsEvex256 pre d s1 src imm8 mask z b => prefixBytes pre ++ evexBytes 1 d s1 src mask z b ++ tailBytes d src imm8
  | .vshufpsEvex512 pre d s1 src imm8 mask z b => prefixBytes pre ++ evexBytes 2 d s1 src mask z b ++ tailBytes d src imm8

end Sys2Proof
end

