-- ==== Sys2Proof/Machine/State.lean ====
section
/-! DEFINITION. The state of the machine (10_state.md, 20_memory.md), plain data, with the parameters of a run
(00_scope.md R4, 10_state.md R33) beside the registers; the faults (60_exceptions.md R153) and the refusals (R172). -/

namespace Sys2Proof.Machine

/-- A partial map from linear addresses to bytes (20_memory.md R40): pairs in strictly rising order of address. -/
abbrev Memory := List Host.Cell

/-- The faults that EnvFault can name: those 60_exceptions.md R154 and R155 list for the two exception classes, and
alignment check, which the spec leaves inside EnvFault (R155, 20_memory.md R48). -/
inductive EnvFault where
  /-- #UD: the system has not enabled the form (R154, R155). -/
  | invalidOpcode
  /-- #NM: device not available (R154, R155). -/
  | deviceNotAvailable
  /-- #SS(0): the operand's address is illegal in the stack segment (R154, R155). -/
  | stackFault
  /-- #GP(0): the operand's address is illegal in another segment, or non-canonical (R154, R155). -/
  | generalProtection
  /-- #PF(error code): a page fault on a byte of the operand (R154, R155, R157). PRESUMED: the code has 32 bits, as in
  the x86 family; the spec gives an error code no width and no layout (log 30). -/
  | pageFault (code : BitVec 32)
  /-- #AC: alignment check, not asserted either way by the spec (R155). -/
  | alignmentCheck
  deriving DecidableEq, Repr

/-- The bases of the segment registers (10_state.md R27, 30_encoding.md R76). -/
structure SegBases where
  es : Addr
  cs : Addr
  ss : Addr
  ds : Addr
  fs : Addr
  gs : Addr
  deriving DecidableEq, Repr

/-- Everything the spec gives the machine but the answers of EnvFault, which depend on all of it (60_exceptions.md R156). -/
structure MachineState where
  /-- The configuration of the run (R4); no step changes it. -/
  cfg : Config
  /-- ZMM[0] to ZMM[31] (10_state.md R20); only the MAXVL low bits can be other than zero (log 20). -/
  zmm : Vector Vec 32
  /-- K[0] to K[7] (10_state.md R24). -/
  k : Vector (BitVec 64) 8
  /-- GPR[0] to GPR[15] (10_state.md R27). -/
  gpr : Vector (BitVec 64) 16
  /-- The segment bases (10_state.md R27). -/
  segBase : SegBases
  /-- The linear address of the current instruction (10_state.md R28). -/
  pc : Addr
  /-- RFLAGS, as one word: no form reads or writes it (10_state.md R29). -/
  rflags : BitVec 64
  /-- MXCSR, as one word: no form reads or writes it (10_state.md R29). -/
  mxcsr : BitVec 32
  /-- Data memory (20_memory.md R40). -/
  mem : Memory
  /-- The program text, apart from data memory (20_memory.md R52); no step changes it. -/
  text : Memory
  deriving DecidableEq, Repr

/-- One answer of EnvFault: for this class and this instruction in this whole machine state it holds and names this
fault (60_exceptions.md R156, log 4). -/
structure EnvEntry where
  excClass : ExcClass
  instr : Instr
  machine : MachineState
  fault : EnvFault
  deriving DecidableEq, Repr

/-- The state; INVENTORY.md lists each field with its rule and reset value. -/
structure State extends MachineState where
  /-- The answers of EnvFault (60_exceptions.md R156, log 4), false where there is none; no step changes them. -/
  env : List EnvEntry
  deriving DecidableEq, Repr

/-- The faults of 60_exceptions.md R153. A fault changes no state and ends the run (R152, log 9); the processor would
go on in a handler, so each is a safe stop. -/
inductive Fault where
  /-- #UD. Raised by the fetch for a reserved encoding (R87), and by every form for a reserved combination (R134), a
  register number that is not there (R87) or a form that is not enabled (R158). Safe: the machine stops. -/
  | invalidOpcode
  /-- #GP(0). Raised by the legacy form when its memory operand is not 16-byte aligned (R48). Safe: the machine stops. -/
  | generalProtection0
  /-- Raised by every form when a byte of its memory operand at `ea` is not mapped (R160). Safe: the machine stops. -/
  | memoryFault (ea : Addr)
  /-- The fault EnvFault names (R156), raised by every form. Safe: the machine stops. -/
  | environment (f : EnvFault)
  deriving DecidableEq, Repr

/-- Where the model gives no meaning (60_exceptions.md R172). Each is safe: nothing follows from a refused step. -/
inductive Refusal where
  /-- Raised by no meaning: an instruction that exec's arm rejects by name. Safe. -/
  | notModelled (mnemonic : String)
  /-- Raised by the fetch when no text stands at `pc`: the run is over (R183). Safe. -/
  | endOfText
  /-- Raised by the fetch when the text ends inside an instruction (R52). Safe. -/
  | truncatedText
  /-- Raised by the fetch when an instruction would be longer than 15 bytes (R83, U19). Safe. -/
  | instructionTooLong
  /-- Raised by the fetch on bytes that are another instruction, or none the spec knows of (R87, R172). Safe. -/
  | otherInstruction
  /-- Raised by the fetch in 32-bit mode, whose byte-level decoding the spec does not give (R85, D23). Safe. -/
  | mode32Decode
  /-- Raised by a memory operand with an address-size byte in 32-bit mode: 16-bit addressing (R77, D23). Safe. -/
  | addressing16
  /-- Raised by a memory operand that passes the top of the address space (R42, D24). Safe. -/
  | accessPastTop
  /-- Raised by an instruction whose `pc + len` reaches the top of the address space (R28, D9). Safe. -/
  | textPastTop
  deriving DecidableEq, Repr

/-- A step that does not complete: a fault or a refusal. -/
inductive Stop where
  | fault (f : Fault)
  | refused (r : Refusal)
  deriving DecidableEq, Repr

/-- A full-featured 64-bit configuration: what State.reset runs with (log 1). -/
def resetConfig : Config where
  features := ⟨true, true, true, true⟩
  maxvl := .v512
  mode64 := true
  aw := 64
  nvec := 32
  nmask := 8
  maskw := 64

/-- The machine right after reset. The spec gives no reset value (R35, R180); every value here is the model's, named
in log 1 (the configuration), log 2 (the registers: those of the x86 family), log 3 and log 24 (text and memory). -/
def State.reset : State where
  cfg := resetConfig
  zmm := Vector.replicate 32 0
  k := Vector.replicate 8 0
  gpr := Vector.replicate 16 0
  segBase := ⟨0, 0, 0, 0, 0, 0⟩
  pc := 0xFFFFFFF0
  rflags := 2
  mxcsr := 0x1F80
  mem := []
  text := []
  env := []

end Sys2Proof.Machine
end

