-- ==== Sys2Proof/Machine/Ops.lean ====
section
/-! DEFINITION. The named operations over registers and memory, the checks every form makes first, and the two ends of
an instruction: advancing `pc`, and a fault. The spec has no exception entry and no return from one (60_exceptions.md
R162, R163): taking an exception is `raise`, which ends the run with the state unchanged (R152). -/

namespace Sys2Proof.Machine

/-! ## How a step ends -/

/-- "raise <Exception>(info)" (00_scope.md R8): the instruction ends with a fault, nothing written (R152). -/
def raise {α : Type} (f : Fault) : Except Stop α := .error (.fault f)

/-- The model gives the situation no meaning (60_exceptions.md R172). -/
def refuse {α : Type} (r : Refusal) : Except Stop α := .error (.refused r)

/-- The outcome of a step from what its meaning answers. -/
def settle : Except Stop State → Host.Outcome State Fault Refusal
  | .ok s => .next s
  | .error (.fault f) => .fault f
  | .error (.refused r) => .refused r

/-! ## Registers -/

/-- The low `n` bits of a vector value, zero-extended: `v[n-1:0]` as a 512-bit word (00_scope.md R7, R8). -/
def low (n : Nat) (v : Vec) : Vec := (v.setWidth n).setWidth 512

/-- `ZMM[n]` (10_state.md R20). -/
def State.readZmm (s : State) (n : VReg) : Vec := s.zmm[n.toNat]'n.isLt

/-- `ZMM[n] <- zext_MAXVL(v)`: the register's MAXVL bits are written (00_scope.md R8, log 20). -/
def State.writeZmm (s : State) (n : VReg) (v : Vec) : State :=
  { s with zmm := s.zmm.set n.toNat (low s.cfg.maxvl.bits v) n.isLt }

/-- `ZMM[n][127:0] <- v`, the other bits of the register as they were (10_state.md R22, 41_shufps_sse.md R110). -/
def State.writeXmm (s : State) (n : VReg) (v : Lane) : State :=
  { s with zmm := s.zmm.set n.toNat ((s.readZmm n).extractLsb' 128 384 ++ v) n.isLt }

/-- `K[n]` (10_state.md R24). -/
def State.readK (s : State) (n : KReg) : BitVec 64 := s.k[n.toNat]'n.isLt

/-- `GPR[n]` (10_state.md R27). -/
def State.readGpr (s : State) (n : GReg) : BitVec 64 := s.gpr[n.toNat]'n.isLt

/-- The base of a segment register (10_state.md R27). -/
def State.readSeg (s : State) : Seg → Addr
  | .es => s.segBase.es
  | .cs => s.segBase.cs
  | .ss => s.segBase.ss
  | .ds => s.segBase.ds
  | .fs => s.segBase.fs
  | .gs => s.segBase.gs

/-- `pc <- v`. -/
def State.setPc (s : State) (v : Addr) : State := { s with pc := v }

/-! ## Memory (20_memory.md R40 to R42) -/

/-- What an address that a memory does not list reads as: nothing, it is not backed by memory (R40, log 24). -/
def unlisted : Option Byte := none

/-- The byte at an address, if the address is in the domain (R40). -/
def Memory.read : Memory → Nat → Option Byte
  | [], _ => unlisted
  | c :: m, a => if c.1 = a then some c.2 else Memory.read m a

/-- The canonical form: addresses strictly rising (no entry can equal what an unlisted address reads as). -/
abbrev Memory.wf (m : Memory) : Prop := m.Pairwise fun x y => x.1 < y.1

/-- A byte written (MemWrite of 00_scope.md R8, which no form calls, R44): used to lay out a program text. -/
def Memory.write : Memory → Nat → Byte → Memory
  | [], a, v => [(a, v)]
  | c :: m, a, v =>
    if a < c.1 then (a, v) :: c :: m
    else if a = c.1 then (a, v) :: m
    else c :: Memory.write m a v

/-- Bytes written at consecutive addresses. -/
def Memory.writeBytes : Memory → Nat → List Byte → Memory
  | m, _, [] => m
  | m, a, v :: vs => Memory.writeBytes (Memory.write m a v) (a + 1) vs

/-- The `n` bytes at `a, a + 1, …`, if all are in the domain (R41, R160). -/
def Memory.readBytes (m : Memory) : Nat → Nat → Option (List Byte)
  | _, 0 => some []
  | a, n + 1 =>
    match Memory.read m a, Memory.readBytes m (a + 1) n with
    | some v, some vs => some (v :: vs)
    | _, _ => none

/-- The value of bytes, the first the least significant (R41), zero-extended. -/
def leValue : List Byte → Vec
  | [] => 0
  | v :: vs => leValue vs <<< 8 ||| v.setWidth 512

/-- `MemRead(ea, n)` (R41): refused past the top of the address space (R42), MemoryFault if a byte is not mapped (R160). -/
def memRead (s : State) (ea : Addr) (n : Nat) : Except Stop Vec :=
  if 2 ^ s.cfg.aw < ea.toNat + n then refuse .accessPastTop
  else
    match Memory.readBytes s.mem ea.toNat n with
    | none => raise (.memoryFault ea)
    | some vs => .ok (leValue vs)

/-! ## The checks of 60_exceptions.md R153, and completing -/

/-- How many vector registers the encoding of a form can name in a mode (10_state.md R23, 30_encoding.md R85): the defaults
of D4. -/
def nameableZmm (mode64 evex : Bool) : Nat :=
  if mode64 then (if evex then 32 else 16) else 8

/-- How many vector registers a form can name: those that are there (NVEC) and that it can encode (10_state.md R23, log 12). -/
def nvec (c : Config) (evex : Bool) : Nat := min c.nvec (nameableZmm c.mode64 evex)

/-- How many general registers there are (30_encoding.md R76, R77). -/
def ngpr (mode64 : Bool) : Nat := if mode64 then 16 else 8

/-- Whether an instruction has a REX byte, which 32-bit mode does not have (30_encoding.md R68, R85). -/
def hasRex : Instr → Bool
  | .shufps _ rex _ _ _ => rex
  | .vshufpsVex128C5 .. => false
  | .vshufpsVex128C4 .. => false
  | .vshufpsVex256C5 .. => false
  | .vshufpsVex256C4 .. => false
  | .vshufpsEvex128 .. => false
  | .vshufpsEvex256 .. => false
  | .vshufpsEvex512 .. => false

/-- A record that is no instruction: a register number that the configuration, mode and form do not have (10_state.md R23 to
R25, 30_encoding.md R85, R87), or a reserved combination of EVEX fields (R87, 43_vshufps_evex.md R134). -/
def reservedCombination (c : Config) (i : Instr) : Bool :=
  let r := i.record
  let n := nvec c r.form.isEvex
  !(decide (r.dest.toNat < n) && decide (r.src1.toNat < n) && r.src2.regsBelow n (ngpr c.mode64) &&
    r.mask.all (fun k => decide (k.toNat < c.nmask)) && (c.mode64 || !hasRex i) && evexFieldsOk r.src2 r.mask r.z r.bcst)

/-- `Enabled(form)`: every flag of the form's row is in FEATURES (60_exceptions.md R158). -/
def enabled (f : Features) : Form → Bool
  | .shufps => f.sse
  | .vex128 => f.avx
  | .vex256 => f.avx
  | .evex128 => f.avx512vl && f.avx512f
  | .evex256 => f.avx512vl && f.avx512f
  | .evex512 => f.avx512f

/-- Whether a fault concerns the address or the bytes of a memory operand, going by its condition in 60_exceptions.md R154 and
R155. -/
def EnvFault.ofOperand : EnvFault → Bool
  | .invalidOpcode => false
  | .deviceNotAvailable => false
  | .stackFault => true
  | .generalProtection => true
  | .pageFault _ => true
  | .alignmentCheck => true

/-- Whether an instruction can raise a fault: with a register operand only #UD and #NM, "the first group" of
41_shufps_sse.md R110 (log 4). -/
def EnvFault.possible (f : EnvFault) (i : Instr) : Bool := i.record.src2.isMem || !f.ofOperand

/-- Whether an entry of the table answers for this class, instruction and machine state. -/
def EnvEntry.answers (e : EnvEntry) (cls : ExcClass) (i : Instr) (m : MachineState) : Bool :=
  e.excClass == cls && e.instr == i && e.fault.possible i && e.machine == m

/-- `EnvFault(class, instr, state)` (60_exceptions.md R156, log 4): the fault it names, or none. -/
def envFault (cls : ExcClass) (i : Instr) (s : State) : Option EnvFault :=
  (s.env.find? fun e => e.answers cls i s.toMachineState).map EnvEntry.fault

/-- The conditions 1 to 3 of R153, tested in its order (R161) before any operand is read. -/
def preflight (i : Instr) (s : State) : Except Stop Unit :=
  if reservedCombination s.cfg i then raise .invalidOpcode
  else if !enabled s.cfg.features i.form then raise .invalidOpcode
  else
    match envFault i.form.excClass i s with
    | some f => raise (.environment f)
    | none => .ok ()

/-- The end of a form that completes: `pc <- pc + len` (10_state.md R28, 30_encoding.md R86); refused where that would
reach the top of the address space (D9, log 17). -/
def advance (i : Instr) (s : State) : Except Stop State :=
  if s.pc.toNat + i.len < 2 ^ s.cfg.aw then .ok (s.setPc (s.pc + BitVec.ofNat 64 i.len))
  else refuse .textPastTop

/-! ## Fetching (20_memory.md R52, 30_encoding.md R82, R83, R87) -/

/-- The bytes of the text from an address on, at most `n`, up to the first address with none. -/
def textBytes (m : Memory) : Nat → Nat → List Byte
  | _, 0 => []
  | a, n + 1 =>
    match Memory.read m a with
    | none => []
    | some v => v :: textBytes m (a + 1) n

/-- What a decoding error is to the machine: a reserved encoding faults (R153 row 1), the rest is refused (R172). -/
def decodeStop : DecodeError → Stop
  | .truncated => .refused .truncatedText
  | .tooLong => .refused .instructionTooLong
  | .otherInstruction => .refused .otherInstruction
  | .reserved _ => .fault .invalidOpcode

/-- The instruction at `pc`. The run is over where there is no text (70_reset_and_hazards.md R183); the bytes are decoded in
64-bit mode only (R85). -/
def fetch (s : State) : Except Stop Instr :=
  match textBytes s.text s.pc.toNat maxLen with
  | [] => refuse .endOfText
  | vs =>
    if !s.cfg.mode64 then refuse .mode32Decode
    else
      match decode vs with
      | .ok i => .ok i
      | .error e => .error (decodeStop e)

end Sys2Proof.Machine
end

