-- ==== Sys2Proof/Machine/Shuffle.lean ====
section
/-! DEFINITION. The pure functions of 40_shuffle_function.md (Select4, Shuf128, ShufVL), the broadcast of
43_vshufps_evex.md R131 and the masking of R132. -/

namespace Sys2Proof.Machine

/-- Element `e`, bits `[32e+31:32e]` (40_shuffle_function.md R103). -/
def elem (v : Vec) (e : Nat) : Elem := v.extractLsb' (32 * e) 32

/-- Lane `n`, bits `[128n+127:128n]` (R102). -/
def lane (v : Vec) (n : Nat) : Lane := v.extractLsb' (128 * n) 128

/-- A vector value from its four lanes. -/
def ofLanes (f : Nat → Lane) : Vec := f 3 ++ f 2 ++ f 1 ++ f 0

/-- A vector value from its sixteen elements. -/
def ofElems (f : Nat → Elem) : Vec :=
  ofLanes fun n => f (4 * n + 3) ++ f (4 * n + 2) ++ f (4 * n + 1) ++ f (4 * n)

/-- `Select4(q, c) = q[32c+31:32c]` (R100; the mapping is the spec's decision D1, log 5). -/
def select4 (q : Lane) (c : BitVec 2) : Elem := q.extractLsb' (32 * c.toNat) 32

/-- `Shuf128(a, b, imm8)` (R101): two elements of `a` below two of `b`, one 2-bit control each. -/
def shuf128 (a b : Lane) (imm8 : BitVec 8) : Lane :=
  select4 b (imm8.extractLsb' 6 2) ++ select4 b (imm8.extractLsb' 4 2) ++
    select4 a (imm8.extractLsb' 2 2) ++ select4 a (imm8.extractLsb' 0 2)

/-- `ShufVL(VL, a, b, imm8)` (R102), zero-extended: the same `imm8` for every lane, and no element crosses a lane. -/
def shufVL (vl : VL) (a b : Vec) (imm8 : BitVec 8) : Vec :=
  ofLanes fun n => if n < vl.lanes then shuf128 (lane a n) (lane b n) imm8 else 0

/-- A 32-bit word copied into each of the KL elements (43_vshufps_evex.md R131, `b = 1`). -/
def broadcast (vl : VL) (w : Elem) : Vec :=
  ofElems fun j => if j < vl.kl then w else 0

/-- The masked write-back (43_vshufps_evex.md R132, R135): element `j` of the result is that of `tmp` where the mask bit is
set, else that of `old` under merging-masking and 0 under zeroing-masking; nothing from bit VL up (R133). -/
def blend (vl : VL) (m : Nat → Bool) (z : Bool) (tmp old : Vec) : Vec :=
  ofElems fun j =>
    if j < vl.kl then (if m j then elem tmp j else if z then 0 else elem old j) else 0

end Sys2Proof.Machine
end

