-- ==== Sys2Proof/Machine/Operands.lean ====
section
/-! DEFINITION. The operand forms: the linear address of a memory operand (30_encoding.md R76 to R78, R88), the second source
(20_memory.md R43, 43_vshufps_evex.md R131) and the writemask (10_state.md R25). -/

namespace Sys2Proof.Machine

/-- The displacement, sign-extended; disp8 is scaled by `n` (30_encoding.md R78). -/
def dispValue (n : Nat) : Disp → Addr
  | .absent => 0
  | .d8 v => v.signExtend 64 * BitVec.ofNat 64 n
  | .d32 v => v.signExtend 64

/-- The scaled index: `GPR[X ++ index] << ss`, 0 where there is none (30_encoding.md R67, R76). -/
def indexValue (s : State) : Option Index → Addr
  | none => 0
  | some i => s.readGpr i.reg <<< i.ss.toNat

/-- The address of a memory operand before the address size is applied (30_encoding.md R76; `disp32` alone in the
RIP-relative form's encoding in 32-bit mode, R77). `len` is the length of the instruction, `n` the disp8 scale. -/
def rawAddress (s : State) (len n : Nat) : MemOperand → Addr
  | .base b disp => s.readGpr b + dispValue n disp
  | .ripRel disp =>
    if s.cfg.mode64 then s.pc + BitVec.ofNat 64 len + disp.signExtend 64 else disp.signExtend 64
  | .sib b idx disp => s.readGpr b + indexValue s idx + dispValue n disp
  | .sibNoBase idx disp => indexValue s idx + disp.signExtend 64

/-- Whether an address-size byte 67 is among the prefixes (30_encoding.md R77, R88). -/
def addressSizeByte (pre : List LegacyPrefix) : Bool := pre.contains .addrSize

/-- The effective address: 64 bits in 64-bit mode; the low 32 bits, zero-extended, with a byte 67 or in 32-bit mode
(30_encoding.md R77; taking the low 32 bits of the registers gives the same sum, log 27). -/
def effectiveAddress (s : State) (pre : List LegacyPrefix) (len n : Nat) (m : MemOperand) : Addr :=
  if s.cfg.mode64 && !addressSizeByte pre then rawAddress s len n m
  else ((rawAddress s len n m).setWidth 32).setWidth 64

/-- The default segment: SS when the base register is RSP or RBP, else DS (30_encoding.md R76). -/
def MemOperand.defaultSeg : MemOperand → Seg
  | .base b _ => if b = 4 ∨ b = 5 then .ss else .ds
  | .ripRel _ => .ds
  | .sib b _ _ => if b = 4 ∨ b = 5 then .ss else .ds
  | .sibNoBase _ _ => .ds

/-- Whether a segment's base counts: in 64-bit mode only those of FS and GS do (30_encoding.md R76, R88). -/
def segCounts (mode64 : Bool) (g : Seg) : Bool := !mode64 || g == .fs || g == .gs

/-- The segment of a segment override. -/
def LegacyPrefix.seg? : LegacyPrefix → Option Seg
  | .seg g => some g
  | .addrSize => none

/-- The segment overrides that have an effect (30_encoding.md R88). -/
def overrides (mode64 : Bool) (pre : List LegacyPrefix) : List Seg :=
  (pre.filterMap LegacyPrefix.seg?).filter (segCounts mode64)

/-- The segment in use: the default, or that of the override; of different overrides one, nobody knows which (log 15). -/
def segmentInUse (mode64 : Bool) (pre : List LegacyPrefix) (m : MemOperand) : Seg :=
  match overrides mode64 pre with
  | [] => MemOperand.defaultSeg m
  | g :: gs =>
    if gs.all (· == g) then g else (g :: gs).getD (Config.overrideChoice (g :: gs) % (g :: gs).length) g

/-- The base that the segment in use adds (30_encoding.md R76): 0 for a segment whose base does not count. -/
def segmentBase (s : State) (pre : List LegacyPrefix) (m : MemOperand) : Addr :=
  let g := segmentInUse s.cfg.mode64 pre m
  if segCounts s.cfg.mode64 g then s.readSeg g else 0

/-- EA of 00_scope.md R12: the linear address of the operand, the effective address plus the segment base. -/
def linearAddress (s : State) (pre : List LegacyPrefix) (len n : Nat) (m : MemOperand) : Addr :=
  effectiveAddress s pre len n m + segmentBase s pre m

/-- The value of a memory operand of `size` bytes: 16-bit addressing is refused (30_encoding.md R77), the alignment of the
legacy form is tested before the bytes are read (20_memory.md R48, 60_exceptions.md R153, R161). -/
def memOperand (s : State) (aligned : Bool) (size n len : Nat) (pre : List LegacyPrefix) (m : MemOperand) :
    Except Stop Vec :=
  let ea := linearAddress s pre len n m
  if !s.cfg.mode64 && addressSizeByte pre then refuse .addressing16
  else if aligned && ea.toNat % 16 != 0 then raise .generalProtection0
  else memRead s ea size

/-- The second source of the legacy and VEX forms, VL bits (20_memory.md R43): disp8 is not scaled (30_encoding.md R78). -/
def secondSource (s : State) (vl : VL) (aligned : Bool) (len : Nat) (pre : List LegacyPrefix) : RM → Except Stop Vec
  | .reg r => .ok (low vl.bits (s.readZmm r))
  | .mem m => memOperand s aligned vl.bytes 1 len pre m

/-- The size in bytes of an EVEX form's memory operand, which is also its disp8 scale (20_memory.md R43, 30_encoding.md R78). -/
def evexOperandSize (vl : VL) (b : Bool) : Nat := if b then 4 else vl.bytes

/-- The second source T of the EVEX forms (43_vshufps_evex.md R131): a register, the full-width memory operand, or with
`b = 1` a 4-byte operand in every element. -/
def evexSecondSource (s : State) (vl : VL) (b : Bool) (len : Nat) (pre : List LegacyPrefix) : RM → Except Stop Vec
  | .reg r => .ok (low vl.bits (s.readZmm r))
  | .mem m => do
    let v ← memOperand s false (evexOperandSize vl b) (evexOperandSize vl b) len pre m
    return if b then broadcast vl (elem v 0) else v

/-- The writemask M of 43_vshufps_evex.md R135: every bit set without a writemask, else the bits of `K[n]`. -/
def writemask (s : State) : Option KReg → Nat → Bool
  | none, _ => true
  | some n, j => (s.readK n).getLsbD j

end Sys2Proof.Machine
end

