-- ==== Sys2Proof/Machine/Evex.lean ====
section
/-! DEFINITION. The meanings of the EVEX-encoded forms of VSHUFPS (43_vshufps_evex.md R130 to R138). -/

namespace Sys2Proof.Machine

/-- The complete pseudocode of an EVEX form (R135): the checks, T, then
`ZMM[d] <- zext_MAXVL(R)` with R the shuffle under the writemask. -/
def shuffleEvex (vl : VL) (i : Instr) (pre : List LegacyPrefix) (d s1 : VReg) (src : RM) (imm8 : BitVec 8)
    (mask : Option KReg) (z b : Bool) (s : State) : Host.Outcome State Fault Refusal :=
  settle do
    preflight i s
    let t ← evexSecondSource s vl b i.len pre src
    advance i (s.writeZmm d
      (blend vl (writemask s mask) z (shufVL vl (s.readZmm s1) t imm8) (s.readZmm d)))

/-- VSHUFPS with VL = 128 (R136). -/
def execVshufpsEvex128 (pre : List LegacyPrefix) (d s1 : VReg) (src : RM) (imm8 : BitVec 8) (mask : Option KReg)
    (z b : Bool) (s : State) : Host.Outcome State Fault Refusal :=
  shuffleEvex .v128 (.vshufpsEvex128 pre d s1 src imm8 mask z b) pre d s1 src imm8 mask z b s

/-- VSHUFPS with VL = 256 (R137). -/
def execVshufpsEvex256 (pre : List LegacyPrefix) (d s1 : VReg) (src : RM) (imm8 : BitVec 8) (mask : Option KReg)
    (z b : Bool) (s : State) : Host.Outcome State Fault Refusal :=
  shuffleEvex .v256 (.vshufpsEvex256 pre d s1 src imm8 mask z b) pre d s1 src imm8 mask z b s

/-- VSHUFPS with VL = 512 (R138). -/
def execVshufpsEvex512 (pre : List LegacyPrefix) (d s1 : VReg) (src : RM) (imm8 : BitVec 8) (mask : Option KReg)
    (z b : Bool) (s : State) : Host.Outcome State Fault Refusal :=
  shuffleEvex .v512 (.vshufpsEvex512 pre d s1 src imm8 mask z b) pre d s1 src imm8 mask z b s

end Sys2Proof.Machine
end

