-- ==== Sys2Proof/Machine/Legacy.lean ====
section
/-! DEFINITION. The meaning of SHUFPS, the 128-bit legacy SSE form (41_shufps_sse.md R110). -/

namespace Sys2Proof.Machine

/-- SHUFPS xmm1, xmm2/m128, imm8 (R110). The checks, then the second source (16-byte aligned if it is memory), then the
shuffle of the old destination with it into bits `[127:0]`; the bits above stay. -/
def execShufps (pre : List LegacyPrefix) (rex : Bool) (d : VReg) (src : RM) (imm8 : BitVec 8) (s : State) :
    Host.Outcome State Fault Refusal :=
  let i : Instr := .shufps pre rex d src imm8
  settle do
    preflight i s
    let b ← secondSource s .v128 true i.len pre src
    advance i (s.writeXmm d (shuf128 (lane (s.readZmm d) 0) (lane b 0) imm8))

end Sys2Proof.Machine
end

