-- ==== Sys2Proof/Machine/Vex.lean ====
section
/-! DEFINITION. The meanings of the VEX-encoded forms of VSHUFPS (42_vshufps_vex.md R120 to R122). The rows that differ only
in the length of the VEX prefix have the same semantics but for `len` (30_encoding.md R70, R89). -/

namespace Sys2Proof.Machine

/-- What the VEX forms share (R120): the checks, the second source, no alignment requirement, then
`ZMM[d] <- zext_MAXVL(ShufVL(VL, a, b, imm8))`. -/
def shuffleVex (vl : VL) (i : Instr) (pre : List LegacyPrefix) (d s1 : VReg) (src : RM) (imm8 : BitVec 8) (s : State) :
    Host.Outcome State Fault Refusal :=
  settle do
    preflight i s
    let b ← secondSource s vl false i.len pre src
    advance i (s.writeZmm d (shufVL vl (s.readZmm s1) b imm8))

/-- VSHUFPS xmm1, xmm2, xmm3/m128, imm8, two-byte prefix (R121). -/
def execVshufpsVex128C5 (pre : List LegacyPrefix) (d s1 : VReg) (src : RM) (imm8 : BitVec 8) (s : State) :
    Host.Outcome State Fault Refusal :=
  shuffleVex .v128 (.vshufpsVex128C5 pre d s1 src imm8) pre d s1 src imm8 s

/-- VSHUFPS xmm1, xmm2, xmm3/m128, imm8, three-byte prefix (R121). -/
def execVshufpsVex128C4 (pre : List LegacyPrefix) (d s1 : VReg) (src : RM) (imm8 : BitVec 8) (s : State) :
    Host.Outcome State Fault Refusal :=
  shuffleVex .v128 (.vshufpsVex128C4 pre d s1 src imm8) pre d s1 src imm8 s

/-- VSHUFPS ymm1, ymm2, ymm3/m256, imm8, two-byte prefix (R122). -/
def execVshufpsVex256C5 (pre : List LegacyPrefix) (d s1 : VReg) (src : RM) (imm8 : BitVec 8) (s : State) :
    Host.Outcome State Fault Refusal :=
  shuffleVex .v256 (.vshufpsVex256C5 pre d s1 src imm8) pre d s1 src imm8 s

/-- VSHUFPS ymm1, ymm2, ymm3/m256, imm8, three-byte prefix (R122). -/
def execVshufpsVex256C4 (pre : List LegacyPrefix) (d s1 : VReg) (src : RM) (imm8 : BitVec 8) (s : State) :
    Host.Outcome State Fault Refusal :=
  shuffleVex .v256 (.vshufpsVex256C4 pre d s1 src imm8) pre d s1 src imm8 s

end Sys2Proof.Machine
end

