-- ==== Sys2Proof/Machine/Dispatch.lean ====
section
/-! DEFINITION. The dispatch: one arm per row of the opcode table. -/

namespace Sys2Proof.Machine

def exec (i : Instr) (s : State) : Host.Outcome State Fault Refusal :=
  match i with
  | .shufps pre rex d src imm8 => Sys2Proof.Machine.execShufps pre rex d src imm8 s
  | .vshufpsVex128C5 pre d s1 src imm8 => Sys2Proof.Machine.execVshufpsVex128C5 pre d s1 src imm8 s
  | .vshufpsVex128C4 pre d s1 src imm8 => Sys2Proof.Machine.execVshufpsVex128C4 pre d s1 src imm8 s
  | .vshufpsVex256C5 pre d s1 src imm8 => Sys2Proof.Machine.execVshufpsVex256C5 pre d s1 src imm8 s
  | .vshufpsVex256C4 pre d s1 src imm8 => Sys2Proof.Machine.execVshufpsVex256C4 pre d s1 src imm8 s
  | .vshufpsEvex128 pre d s1 src imm8 mask z b => Sys2Proof.Machine.execVshufpsEvex128 pre d s1 src imm8 mask z b s
  | .vshufpsEvex256 pre d s1 src imm8 mask z b => Sys2Proof.Machine.execVshufpsEvex256 pre d s1 src imm8 mask z b s
  | .vshufpsEvex512 pre d s1 src imm8 mask z b => Sys2Proof.Machine.execVshufpsEvex512 pre d s1 src imm8 mask z b s

end Sys2Proof.Machine
end

