-- ==== Sys2Proof/Machine/Step.lean ====
section
/-! DEFINITION. One step: fetch the instruction at `pc` from the program text and execute it (00_scope.md R13,
20_memory.md R52, 60_exceptions.md R172); and the placing of a table word where `step` fetches (log 3, log 23). -/

namespace Sys2Proof.Machine

/-- One step of the machine. -/
def step (s : State) : Host.Outcome State Fault Refusal :=
  match fetch s with
  | .ok i => exec i s
  | .error (.fault f) => .fault f
  | .error (.refused r) => .refused r

/-- The state with the instruction of a table word in the program text at `pc`: its bytes, then zero bytes up to the
longest instruction. -/
def State.withFetchWord (s : State) (nbits w : Nat) : State :=
  { s with text := Memory.writeBytes s.text s.pc.toNat (tableBytes nbits w) }

end Sys2Proof.Machine
end

