-- ==== Sys2Proof/Machine/Flags.lean ====
section
/-! DEFINITION. Flags: no form computes, reads or writes one (10_state.md R29, 60_exceptions.md R150). The one thing the spec says
of them is that they stay as they were. -/

namespace Sys2Proof.Machine

/-- RFLAGS and MXCSR hold in `t` what they hold in `s` (10_state.md R29, D25). -/
def flagsKept (s t : State) : Prop := t.rflags = s.rflags ∧ t.mxcsr = s.mxcsr

end Sys2Proof.Machine
end

