-- ==== Sys2Proof/WellFormed.lean ====
section
/-! DEFINITION. Which instruction records have an encoding in 64-bit mode (30_encoding.md R66 to R78, R83, R87, R88). -/

namespace Sys2Proof

/-- A base register code with no displacement is not 101, which means `disp32` there (R76). -/
def Disp.fitsBase (disp : Disp) (b : GReg) : Bool :=
  disp != .absent || b.extractLsb' 0 3 != 5

/-- An index register is not number 4, which means no index (R76). -/
def Index.ok (i : Index) : Bool := i.reg != 4

/-- The addressing form is the one its bytes decode to (R76): `rm = 100` announces a SIB byte, `mod = 00` with 101 a
`disp32`, index 0100 no index. -/
def MemOperand.ok : MemOperand → Bool
  | .base b disp => b.extractLsb' 0 3 != 4 && disp.fitsBase b
  | .ripRel _ => true
  | .sib b idx disp => disp.fitsBase b && idx.all Index.ok
  | .sibNoBase idx _ => idx.all Index.ok

/-- An r/m operand has an encoding. -/
def RM.ok : RM → Bool
  | .reg _ => true
  | .mem m => m.ok

/-- Whether a record has an encoding in 64-bit mode: every register number fits its form's fields (R68 to R72), the
addressing form and the EVEX fields are encodable, and the length is at most 15 (R83). -/
def Instr.wellFormed (i : Instr) : Bool :=
  decide (i.len ≤ maxLen) && i.record.src2.ok &&
  match i with
  | .shufps _ rex d src _ =>
    if rex then decide (d.toNat < 16) && src.regsBelow 16 16 else decide (d.toNat < 8) && src.regsBelow 8 8
  | .vshufpsVex128C5 _ d s1 src _ => decide (d.toNat < 16) && decide (s1.toNat < 16) && src.regsBelow 8 8
  | .vshufpsVex128C4 _ d s1 src _ => decide (d.toNat < 16) && decide (s1.toNat < 16) && src.regsBelow 16 16
  | .vshufpsVex256C5 _ d s1 src _ => decide (d.toNat < 16) && decide (s1.toNat < 16) && src.regsBelow 8 8
  | .vshufpsVex256C4 _ d s1 src _ => decide (d.toNat < 16) && decide (s1.toNat < 16) && src.regsBelow 16 16
  | .vshufpsEvex128 _ _ _ src _ mask z b => evexFieldsOk src mask z b
  | .vshufpsEvex256 _ _ _ src _ mask z b => evexFieldsOk src mask z b
  | .vshufpsEvex512 _ _ _ src _ mask z b => evexFieldsOk src mask z b

end Sys2Proof
end

