-- ==== Sys2Proof/Safety.lean ====
section
/-! DEFINITION. The terms in which claims are stated: the launch premises of 70_reset_and_hazards.md R181 for one instruction,
the value of a memory operand byte by byte (20_memory.md R41), the closed form of the shuffle (40_shuffle_function.md R103), the
fault a form raises (60_exceptions.md R153), and the invariant of the machine. -/

namespace Sys2Proof.Machine

/-! ## The premises of R181 -/

/-- `FormsEnabled` for one instruction: it is an instruction of this mode (30_encoding.md R87, 43_vshufps_evex.md R134) and its form is
enabled (60_exceptions.md R158). -/
def FormEnabled (i : Instr) (s : State) : Prop :=
  reservedCombination s.cfg i = false ∧ enabled s.cfg.features i.form = true

/-- `NoEnvFault` for one instruction (60_exceptions.md R156). -/
def NoEnvFault (i : Instr) (s : State) : Prop := envFault i.form.excClass i s = none

/-- EnvFault answers alike for an instruction in two states: the premise of a claim that compares them, since its answer may
depend on the whole state (60_exceptions.md R156). -/
def SameEnvFault (i : Instr) (s s' : State) : Prop := envFault i.form.excClass i s' = envFault i.form.excClass i s

/-- `pc + len` stays below the top of the address space (10_state.md R28). -/
def TextBelowTop (i : Instr) (s : State) : Prop := s.pc.toNat + i.len < 2 ^ s.cfg.aw

/-- What every form needs of the state to complete, its operand apart. -/
def Ready (i : Instr) (s : State) : Prop := FormEnabled i s ∧ NoEnvFault i s ∧ TextBelowTop i s

/-- The size in bytes of the memory operand a record can have (20_memory.md R43). -/
def Record.operandSize (r : Record) : Nat := if r.bcst then 4 else r.form.vl.bytes

/-- The scale of a disp8 (30_encoding.md R78). -/
def Record.dispScale (r : Record) : Nat := if r.form.isEvex then Record.operandSize r else 1

/-- EA of an instruction whose second source is the memory operand `m` (30_encoding.md R76). -/
def operandAddress (i : Instr) (s : State) (m : MemOperand) : Addr :=
  linearAddress s i.record.pre i.len (Record.dispScale i.record) m

/-- The address of the operand can be formed: not 16-bit addressing (30_encoding.md R77). -/
def AddressFormed (i : Instr) (s : State) : Prop :=
  s.cfg.mode64 = true ∨ addressSizeByte i.record.pre = false

/-- The memory holds the `n`-byte value `v` at `a`: bits `[8k+7:8k]` of `v` are the byte at `a + k` (20_memory.md R41), and
`v` has no more bits. -/
def MemHolds (m : Memory) (a n : Nat) (v : Vec) : Prop :=
  v.toNat < 2 ^ (8 * n) ∧ ∀ k, k < n → Memory.read m (a + k) = some (v.extractLsb' (8 * k) 8)

/-- `OperandsMapped` for one instruction: the bytes of its operand at `ea` hold `v`, inside the address space, and `ea` is
16-byte aligned for the legacy form (70_reset_and_hazards.md R181, 20_memory.md R42, R48). -/
def OperandHolds (i : Instr) (s : State) (m : MemOperand) (v : Vec) : Prop :=
  AddressFormed i s ∧
  (i.form = .shufps → (operandAddress i s m).toNat % 16 = 0) ∧
  (operandAddress i s m).toNat + Record.operandSize i.record ≤ 2 ^ s.cfg.aw ∧
  MemHolds s.mem (operandAddress i s m).toNat (Record.operandSize i.record) v

/-- Element `j` of the second source is `f j` for every `j < KL` (43_vshufps_evex.md R131): an element of the register, of the
memory operand, or with `b = 1` the one 32-bit word of the memory operand. -/
def SecondSourceIs (i : Instr) (s : State) (f : Nat → Elem) : Prop :=
  match i.record.src2 with
  | .reg r => ∀ j, j < i.form.vl.kl → f j = elem (s.readZmm r) j
  | .mem m => ∃ v, OperandHolds i s m v ∧
      ∀ j, j < i.form.vl.kl → f j = elem v (if i.record.bcst then 0 else j)

/-! ## The registers a record names -/

/-- A vector register that a record names: the destination, the first source, or a register second source (00_scope.md R12). -/
def Record.namesZmm (r : Record) (n : VReg) : Prop := n = r.dest ∨ n = r.src1 ∨ r.src2 = .reg n

/-- A general register that a memory operand names: its base or its index (30_encoding.md R76). -/
def MemOperand.namesGpr (g : GReg) : MemOperand → Prop
  | .base b _ => g = b
  | .ripRel _ => False
  | .sib b idx _ => g = b ∨ ∃ x, idx = some x ∧ g = x.reg
  | .sibNoBase idx _ => ∃ x, idx = some x ∧ g = x.reg

/-! ## The shuffle, element by element -/

/-- The control of destination position `p` of a lane, `imm8[2p+1:2p]` as a number (40_shuffle_function.md R103). -/
def selectControl (imm8 : BitVec 8) (p : Nat) : Nat := (imm8.extractLsb' (2 * p) 2).toNat

/-- Element `e` of ShufVL in closed form (40_shuffle_function.md R103), from the elements of the two sources. -/
def shufElem (a b : Nat → Elem) (imm8 : BitVec 8) (e : Nat) : Elem :=
  if e % 4 < 2 then a (4 * (e / 4) + selectControl imm8 (e % 4)) else b (4 * (e / 4) + selectControl imm8 (e % 4))

/-- The state after a form that completed: register `d` holds `w`, `pc` is past the instruction, the rest is as it was. -/
def State.after (s : State) (i : Instr) (d : VReg) (w : Vec) : State :=
  { s with zmm := s.zmm.set d.toNat w d.isLt, pc := s.pc + BitVec.ofNat 64 i.len }

/-! ## The fault of a form (60_exceptions.md R153) -/

/-- Some byte of the operand is not mapped (R160). -/
def Unmapped (m : Memory) (a n : Nat) : Prop := ∃ k, k < n ∧ Memory.read m (a + k) = none

/-- `f` is the fault that R153's table gives for an instruction in a state: its conditions in order, the first that holds. -/
def FaultOf (i : Instr) (s : State) (f : Fault) : Prop :=
  if reservedCombination s.cfg i = true ∨ enabled s.cfg.features i.form = false then f = .invalidOpcode
  else
    match envFault i.form.excClass i s, i.record.src2 with
    | some e, _ => f = .environment e
    | none, .reg _ => False
    | none, .mem m =>
      AddressFormed i s ∧
      if i.form = .shufps ∧ (operandAddress i s m).toNat % 16 ≠ 0 then f = .generalProtection0
      else
        (operandAddress i s m).toNat + Record.operandSize i.record ≤ 2 ^ s.cfg.aw ∧
        Unmapped s.mem (operandAddress i s m).toNat (Record.operandSize i.record) ∧
        f = .memoryFault (operandAddress i s m)

/-! ## Fetching -/

/-- The program text holds these bytes at `pc` (20_memory.md R52). -/
def TextHolds (s : State) (vs : List Byte) : Prop :=
  ∀ k, (h : k < vs.length) → Memory.read s.text (s.pc.toNat + k) = some vs[k]

/-- The bytes of an instruction from its opcode, VEX or EVEX prefix on: legacy prefixes and a REX byte set aside
(30_encoding.md R81). -/
def fixedBytes (vs : List Byte) : List Byte :=
  match (takePrefixes vs).2 with
  | [] => []
  | v :: rest => if v.extractLsb' 4 4 = 4 then rest else v :: rest

/-! ## The invariant -/

/-- Every address a memory lists is below `n`. -/
def Memory.below (n : Nat) (m : Memory) : Prop := ∀ c ∈ m, c.1 < n

/-- The invariant of the machine: the configuration meets R4, R5 and R24; both memories are in canonical form and inside the
address space; no vector register has a bit from MAXVL up (R20), no opmask register one from MASKW up (R24), and a register
that is not there, from NVEC or NMASK up, holds nothing (log 20); `pc` has AW bits (R28). -/
structure MachineInv (s : State) : Prop where
  cfg : s.cfg.wf = true
  mem : Memory.wf s.mem ∧ Memory.below (2 ^ s.cfg.aw) s.mem
  text : Memory.wf s.text ∧ Memory.below (2 ^ s.cfg.aw) s.text
  zmm : ∀ n, low s.cfg.maxvl.bits (s.readZmm n) = s.readZmm n
  zmmAbsent : ∀ n : VReg, s.cfg.nvec ≤ n.toNat → s.readZmm n = 0
  k : ∀ n, (s.readK n).toNat < 2 ^ s.cfg.maskw
  kAbsent : ∀ n : KReg, s.cfg.nmask ≤ n.toNat → s.readK n = 0
  pc : s.pc.toNat < 2 ^ s.cfg.aw

end Sys2Proof.Machine
end

