-- ==== Sys2Proof/Certificates/Slice0/Obligations.lean ====
section
/-! DEFINITION. The statements for the provers, from the numbered rules of spec/. OBLIGATIONS.json lists them with their
rules; a rule or mark named here is the one a clause rests on. D<n> is a decision of the spec (92_eei_decisions.md), GK a
passage the spec supplies from general knowledge, log <n> a row of notes/assumptions. -/

open Sys2Proof Sys2Proof.Machine

/-! ## The shuffle function (40_shuffle_function.md) -/

/-- Select4 picks element number `c`, counted from the least significant. R100, whose mapping is the spec's decision D1
(log 5). -/
def Obligations.Select4PicksElement : Prop :=
  ∀ q3 q2 q1 q0 : Elem,
    select4 (q3 ++ q2 ++ q1 ++ q0) 0 = q0 ∧ select4 (q3 ++ q2 ++ q1 ++ q0) 1 = q1 ∧
    select4 (q3 ++ q2 ++ q1 ++ q0) 2 = q2 ∧ select4 (q3 ++ q2 ++ q1 ++ q0) 3 = q3

/-- R101: the four slices of Shuf128, each Select4 of its source under its own 2-bit control. -/
def Obligations.Shuf128Slices : Prop :=
  ∀ (a b : Lane) (imm8 : BitVec 8),
    (shuf128 a b imm8).extractLsb' 0 32 = select4 a (imm8.extractLsb' 0 2) ∧
    (shuf128 a b imm8).extractLsb' 32 32 = select4 a (imm8.extractLsb' 2 2) ∧
    (shuf128 a b imm8).extractLsb' 64 32 = select4 b (imm8.extractLsb' 4 2) ∧
    (shuf128 a b imm8).extractLsb' 96 32 = select4 b (imm8.extractLsb' 6 2)

/-- R102: lane `n` of ShufVL is Shuf128 of the lanes `n` of the sources with the same `imm8`, for every lane of VL (so
that no element crosses a lane), and ShufVL at 128 bits is Shuf128. The value has VL bits. -/
def Obligations.ShufVLLaneByLane : Prop :=
  ∀ (vl : VL) (a b : Vec) (imm8 : BitVec 8),
    (∀ n, n < vl.lanes → lane (shufVL vl a b imm8) n = shuf128 (lane a n) (lane b n) imm8) ∧
    low vl.bits (shufVL vl a b imm8) = shufVL vl a b imm8 ∧
    shufVL .v128 a b imm8 = (shuf128 (a.setWidth 128) (b.setWidth 128) imm8).setWidth 512

/-- R103, the closed form (derived in the spec, on D1): element `e = 4n + p` of ShufVL is element `4n + c` of the first
source for `p` 0 or 1, of the second for `p` 2 or 3, with `c` the control `imm8[2p+1:2p]`. -/
def Obligations.ShuffleClosedForm : Prop :=
  ∀ (vl : VL) (a b : Vec) (imm8 : BitVec 8) (e : Nat), e < vl.kl →
    elem (shufVL vl a b imm8) e = shufElem (elem a) (elem b) imm8 e

/-- R109, the table of controls (derived in the spec, on D1). -/
def Obligations.ShuffleControlTable : Prop :=
  ∀ a3 a2 a1 a0 b3 b2 b1 b0 : Elem,
    let sh := shuf128 (a3 ++ a2 ++ a1 ++ a0) (b3 ++ b2 ++ b1 ++ b0)
    sh 0x00 = b0 ++ b0 ++ a0 ++ a0 ∧ sh 0xE4 = b3 ++ b2 ++ a1 ++ a0 ∧ sh 0x1B = b0 ++ b1 ++ a2 ++ a3 ∧
    sh 0x44 = b1 ++ b0 ++ a1 ++ a0 ∧ sh 0xEE = b3 ++ b2 ++ a3 ++ a2 ∧ sh 0x88 = b2 ++ b0 ++ a2 ++ a0 ∧
    sh 0xDD = b3 ++ b1 ++ a3 ++ a1 ∧ sh 0xFF = b3 ++ b3 ++ a3 ++ a3 ∧ sh 0x4E = b1 ++ b0 ++ a3 ++ a2

/-- R109, last sentence (derived in the spec): in every lane the low 64 bits never depend on `b` or `imm8[7:4]`, the high
64 bits never on `a` or `imm8[3:0]`. -/
def Obligations.HalvesDependOnOwnSource : Prop :=
  ∀ (a a' b b' : Lane) (imm8 imm8' : BitVec 8),
    (imm8.extractLsb' 0 4 = imm8'.extractLsb' 0 4 →
      (shuf128 a b imm8).extractLsb' 0 64 = (shuf128 a b' imm8').extractLsb' 0 64) ∧
    (imm8.extractLsb' 4 4 = imm8'.extractLsb' 4 4 →
      (shuf128 a b imm8).extractLsb' 64 64 = (shuf128 a' b imm8').extractLsb' 64 64)

/-- R131, last part (derived in the spec): with a broadcast second source the controls `imm8[7:4]` have no effect. -/
def Obligations.BroadcastIgnoresHighControls : Prop :=
  ∀ (vl : VL) (a : Vec) (w : Elem) (imm8 imm8' : BitVec 8), imm8.extractLsb' 0 4 = imm8'.extractLsb' 0 4 →
    shufVL vl a (broadcast vl w) imm8 = shufVL vl a (broadcast vl w) imm8'

/-- R106 and R108 (consequences the spec derives): every element of the result of ShufVL is, bit for bit, one element of
a source in the same lane, whatever it encodes. -/
def Obligations.ElementsAreCopied : Prop :=
  ∀ (vl : VL) (a b : Vec) (imm8 : BitVec 8) (e : Nat), e < vl.kl →
    ∃ e', e' / 4 = e / 4 ∧
      elem (shufVL vl a b imm8) e = elem (if e % 4 < 2 then a else b) e'

/-! ## Memory operands (20_memory.md) -/

/-- R41 (byte order by the spec's decision D5, log 7) and R42: a read of `n` bytes answers a value exactly where it stays
inside the address space and the memory holds that value there, the byte at the lowest address the least significant. -/
def Obligations.MemReadLittleEndian : Prop :=
  ∀ (s : State) (ea : Addr) (n : Nat) (v : Vec), n ≤ 64 →
    (memRead s ea n = .ok v ↔ ea.toNat + n ≤ 2 ^ s.cfg.aw ∧ MemHolds s.mem ea.toNat n v)

/-- R45 (derived in the spec): element `j` of a full-width memory operand is the four bytes at `EA + 4j`. -/
def Obligations.MemoryElementOrder : Prop :=
  ∀ (s : State) (vl : VL) (ea : Addr) (v : Vec) (j : Nat), memRead s ea vl.bytes = .ok v → j < vl.kl →
    ea.toNat + 4 * j < 2 ^ 64 →
    ∃ w, memRead s (ea + BitVec.ofNat 64 (4 * j)) 4 = .ok w ∧ elem w 0 = elem v j

/-- R42 (the spec's decision D24): an access that passes the top of the address space is refused, in every form, where
nothing that R153 tests before the read stops it. -/
def Obligations.AccessPastTopRefused : Prop :=
  ∀ (i : Instr) (s : State) (m : MemOperand), FormEnabled i s → NoEnvFault i s → i.record.src2 = .mem m →
    AddressFormed i s → (i.form = .shufps → (operandAddress i s m).toNat % 16 = 0) →
    2 ^ s.cfg.aw < (operandAddress i s m).toNat + Record.operandSize i.record →
    exec i s = .refused .accessPastTop

/-- R46: the broadcast operand is the 4 bytes at EA and no more: where two data memories agree on those and EnvFault (R156; the
table of log 4, the model's choice) answers alike over both, an EVEX form with `b = 1` does the same over both. -/
def Obligations.BroadcastReadsFourBytes : Prop :=
  ∀ (i : Instr) (s : State) (m : MemOperand) (mem' : Memory), i.record.src2 = .mem m → i.record.bcst = true →
    SameEnvFault i s { s with mem := mem' } →
    (∀ k, k < 4 → Memory.read mem' ((operandAddress i s m).toNat + k) =
      Memory.read s.mem ((operandAddress i s m).toNat + k)) →
    (∀ t, exec i s = .next t → exec i { s with mem := mem' } = .next { t with mem := mem' }) ∧
    (∀ f, exec i s = .fault f → exec i { s with mem := mem' } = .fault f) ∧
    (∀ r, exec i s = .refused r → exec i { s with mem := mem' } = .refused r)

/-- R47 and R160 (GK and D13): a byte of the operand that is not mapped faults, naming EA, in every form and whatever
`imm8`, the writemask and `z` are. -/
def Obligations.UnmappedOperandFaults : Prop :=
  ∀ (i : Instr) (s : State) (m : MemOperand), FormEnabled i s → NoEnvFault i s → i.record.src2 = .mem m →
    AddressFormed i s → (i.form = .shufps → (operandAddress i s m).toNat % 16 = 0) →
    (operandAddress i s m).toNat + Record.operandSize i.record ≤ 2 ^ s.cfg.aw →
    Unmapped s.mem (operandAddress i s m).toNat (Record.operandSize i.record) →
    exec i s = .fault (.memoryFault (operandAddress i s m))

/-- R48 (the spec's decision D6, log 8) and vector F4: the legacy form's memory operand at an address that is no multiple
of 16 raises GeneralProtection(0), mapped or not; no other form ever does so. -/
def Obligations.MisalignedLegacyFaults : Prop :=
  (∀ pre rex d m imm8 s, let i := Instr.shufps pre rex d (.mem m) imm8
    FormEnabled i s → NoEnvFault i s → AddressFormed i s → (operandAddress i s m).toNat % 16 ≠ 0 →
    exec i s = .fault .generalProtection0) ∧
  ∀ i s, exec i s = .fault .generalProtection0 → i.form = .shufps

/-! ## Addresses (30_encoding.md, GK; log 22) -/

/-- R76 and R78: the linear address of each addressing form in 64-bit mode without an address-size byte, where no segment
base counts; a disp8 is scaled by `n`. -/
def Obligations.AddressingForms : Prop :=
  ∀ (s : State) (pre : List LegacyPrefix) (len n : Nat), s.cfg.mode64 = true → addressSizeByte pre = false →
    overrides true pre = [] →
    (∀ b, linearAddress s pre len n (.base b .absent) = s.readGpr b) ∧
    (∀ b v, linearAddress s pre len n (.base b (.d8 v)) = s.readGpr b + v.signExtend 64 * BitVec.ofNat 64 n) ∧
    (∀ b v, linearAddress s pre len n (.base b (.d32 v)) = s.readGpr b + v.signExtend 64) ∧
    (∀ v, linearAddress s pre len n (.ripRel v) = s.pc + BitVec.ofNat 64 len + v.signExtend 64) ∧
    (∀ b x, linearAddress s pre len n (.sib b (some x) .absent) =
      s.readGpr b + s.readGpr x.reg * BitVec.ofNat 64 (2 ^ x.ss.toNat)) ∧
    (∀ b x v, linearAddress s pre len n (.sib b (some x) (.d8 v)) =
      s.readGpr b + s.readGpr x.reg * BitVec.ofNat 64 (2 ^ x.ss.toNat) + v.signExtend 64 * BitVec.ofNat 64 n) ∧
    (∀ b x v, linearAddress s pre len n (.sib b (some x) (.d32 v)) =
      s.readGpr b + s.readGpr x.reg * BitVec.ofNat 64 (2 ^ x.ss.toNat) + v.signExtend 64) ∧
    (∀ b, linearAddress s pre len n (.sib b none .absent) = s.readGpr b) ∧
    (∀ b v, linearAddress s pre len n (.sib b none (.d8 v)) = s.readGpr b + v.signExtend 64 * BitVec.ofNat 64 n) ∧
    (∀ b v, linearAddress s pre len n (.sib b none (.d32 v)) = s.readGpr b + v.signExtend 64) ∧
    (∀ x v, linearAddress s pre len n (.sibNoBase (some x) v) =
      s.readGpr x.reg * BitVec.ofNat 64 (2 ^ x.ss.toNat) + v.signExtend 64) ∧
    (∀ v, linearAddress s pre len n (.sibNoBase none v) = v.signExtend 64)

/-- R77: with an address-size byte in 64-bit mode only the low 32 bits of the general registers and of `pc` count, and the
effective address has 32 bits. -/
def Obligations.AddressSizeUsesLow32 : Prop :=
  ∀ (s s' : State) (pre : List LegacyPrefix) (len n : Nat) (m : MemOperand), addressSizeByte pre = true →
    s.cfg = s'.cfg → s.pc.setWidth 32 = s'.pc.setWidth 32 →
    (∀ r, (s.readGpr r).setWidth 32 = (s'.readGpr r).setWidth 32) →
    effectiveAddress s pre len n m = effectiveAddress s' pre len n m ∧
      (effectiveAddress s pre len n m).toNat < 2 ^ 32

/-- R76 and R88: in 64-bit mode the overrides ES, CS, SS and DS have no effect on the address; an override FS or GS alone
adds that segment's base. -/
def Obligations.SegmentOverrides : Prop :=
  ∀ (s : State) (len n : Nat) (m : MemOperand), s.cfg.mode64 = true →
    (∀ g, g ≠ .fs → g ≠ .gs → linearAddress s [.seg g] len n m = linearAddress s [] len n m) ∧
    linearAddress s [.seg .fs] len n m = linearAddress s [] len n m + s.segBase.fs ∧
    linearAddress s [.seg .gs] len n m = linearAddress s [] len n m + s.segBase.gs

/-! ## The instructions: result, frame and completion in one equation each

`s.after i d w` is `s` with ZMM[d] holding `w` and `pc` past the instruction: every other register, all memory and every
flag are those of `s`. `SecondSourceIs i s f` gives the elements of the second source, a register or memory. -/

/-- R110: SHUFPS xmm1, xmm2/m128, imm8. The low four elements are the shuffle of the old destination with the second
source, the others stay. -/
def Obligations.ShufpsResult : Prop :=
  ∀ pre rex d src imm8 s f, let i := Instr.shufps pre rex d src imm8
    Ready i s → SecondSourceIs i s f →
    ∃ w, exec i s = .next (s.after i d w) ∧
      ∀ e, e < 16 → elem w e =
        if e < 4 then shufElem (elem (s.readZmm d)) f imm8 e else elem (s.readZmm d) e

/-- R120, R121: VSHUFPS VEX.128, both prefix lengths. The bits from 128 up are zero. -/
def Obligations.Vex128Result : Prop :=
  ∀ pre d s1 src imm8 s f, ∀ i ∈ [Instr.vshufpsVex128C5 pre d s1 src imm8, .vshufpsVex128C4 pre d s1 src imm8],
    Ready i s → SecondSourceIs i s f →
    ∃ w, exec i s = .next (s.after i d w) ∧
      ∀ e, e < 16 → elem w e = if e < 4 then shufElem (elem (s.readZmm s1)) f imm8 e else 0

/-- R120, R122: VSHUFPS VEX.256, both prefix lengths, where MAXVL is at least the VL of every supported form (R5). The bits from
256 up are zero. -/
def Obligations.Vex256Result : Prop :=
  ∀ pre d s1 src imm8 s f, ∀ i ∈ [Instr.vshufpsVex256C5 pre d s1 src imm8, .vshufpsVex256C4 pre d s1 src imm8],
    s.cfg.fitsForms = true → Ready i s → SecondSourceIs i s f →
    ∃ w, exec i s = .next (s.after i d w) ∧
      ∀ e, e < 16 → elem w e = if e < 8 then shufElem (elem (s.readZmm s1)) f imm8 e else 0

/-- R130 to R133, R136: VSHUFPS EVEX.128. Element `j < 4` is the shuffle's where the mask bit is set or there is no writemask,
else the old one under merging-masking and 0 under zeroing-masking; the bits from 128 up are zero. -/
def Obligations.Evex128Result : Prop :=
  ∀ pre d s1 src imm8 mask z b s f, let i := Instr.vshufpsEvex128 pre d s1 src imm8 mask z b
    Ready i s → SecondSourceIs i s f →
    ∃ w, exec i s = .next (s.after i d w) ∧
      ∀ e, e < 16 → elem w e =
        if e < 4 then
          if mask.all (fun n => (s.readK n).getLsbD e) then shufElem (elem (s.readZmm s1)) f imm8 e
          else if z then 0 else elem (s.readZmm d) e
        else 0

/-- R130 to R133, R137: VSHUFPS EVEX.256, where MAXVL is at least the VL of every supported form (R5). -/
def Obligations.Evex256Result : Prop :=
  ∀ pre d s1 src imm8 mask z b s f, let i := Instr.vshufpsEvex256 pre d s1 src imm8 mask z b
    s.cfg.fitsForms = true → Ready i s → SecondSourceIs i s f →
    ∃ w, exec i s = .next (s.after i d w) ∧
      ∀ e, e < 16 → elem w e =
        if e < 8 then
          if mask.all (fun n => (s.readK n).getLsbD e) then shufElem (elem (s.readZmm s1)) f imm8 e
          else if z then 0 else elem (s.readZmm d) e
        else 0

/-- R130 to R133, R138: VSHUFPS EVEX.512, where MAXVL is at least the VL of every supported form (R5). -/
def Obligations.Evex512Result : Prop :=
  ∀ pre d s1 src imm8 mask z b s f, let i := Instr.vshufpsEvex512 pre d s1 src imm8 mask z b
    s.cfg.fitsForms = true → Ready i s → SecondSourceIs i s f →
    ∃ w, exec i s = .next (s.after i d w) ∧
      ∀ e, e < 16 → elem w e =
        if mask.all (fun n => (s.readK n).getLsbD e) then shufElem (elem (s.readZmm s1)) f imm8 e
        else if z then 0 else elem (s.readZmm d) e

/-- R133: after an EVEX form `ZMM[d][MAXVL-1:VL]` is zero, whatever the mask, `z` and the number of elements written; with an
all-zero writemask and merging-masking, where MAXVL is at least the VL of every supported form (R5), the bits below VL are kept. -/
def Obligations.EvexZeroesUpperBits : Prop :=
  ∀ (i : Instr) (s t : State), i.form.isEvex = true → exec i s = .next t →
    low i.form.vl.bits (t.readZmm i.record.dest) = t.readZmm i.record.dest ∧
    ∀ n, s.cfg.fitsForms = true → i.record.mask = some n → i.record.z = false →
      (s.readK n).extractLsb' 0 i.form.vl.kl = 0 →
      t.readZmm i.record.dest = low i.form.vl.bits (s.readZmm i.record.dest)

/-- R110, first corner case (derived in the spec, on D1 and D2): with the same register twice, `imm8 = 0xE4` changes nothing but
`pc`, and `0x1B` reverses the four low elements. -/
def Obligations.ShufpsOnOneRegister : Prop :=
  ∀ pre rex d s,
    (Ready (.shufps pre rex d (.reg d) 0xE4) s →
      exec (.shufps pre rex d (.reg d) 0xE4) s =
        .next (s.setPc (s.pc + BitVec.ofNat 64 (Instr.shufps pre rex d (.reg d) 0xE4).len))) ∧
    (Ready (.shufps pre rex d (.reg d) 0x1B) s →
      ∃ t, exec (.shufps pre rex d (.reg d) 0x1B) s = .next t ∧
        ∀ e, e < 4 → elem (t.readZmm d) e = elem (s.readZmm d) (3 - e))

/-- R136 and R137, first corner case, R89 (derived in the spec): with no writemask and no broadcast an EVEX form leaves the same ZMM
registers as the VEX form of the same length, with either prefix length, on the same operands (registers, or memory at the same
address, whatever their legacy prefixes), where both complete. -/
def Obligations.EvexUnmaskedEqualsVex : Prop :=
  ∀ pre pre' d s1 src imm8 z s t t',
    (∀ v ∈ [Instr.vshufpsVex128C5 pre' d s1 src imm8, .vshufpsVex128C4 pre' d s1 src imm8],
      let e := Instr.vshufpsEvex128 pre d s1 src imm8 none z false
      (∀ m, src = .mem m → operandAddress e s m = operandAddress v s m) →
      exec e s = .next t → exec v s = .next t' → t.zmm = t'.zmm) ∧
    (∀ v ∈ [Instr.vshufpsVex256C5 pre' d s1 src imm8, .vshufpsVex256C4 pre' d s1 src imm8],
      let e := Instr.vshufpsEvex256 pre d s1 src imm8 none z false
      (∀ m, src = .mem m → operandAddress e s m = operandAddress v s m) →
      exec e s = .next t → exec v s = .next t' → t.zmm = t'.zmm)

/-- R121, first corner case, and R110: with `d = s1` the VEX.128 form leaves the low 128 bits that the legacy form leaves, and
zeroes the bits that the legacy form keeps. -/
def Obligations.LegacyAndVexDifferAbove128 : Prop :=
  ∀ pre rex d r imm8 s t t', exec (.shufps pre rex d (.reg r) imm8) s = .next t →
    exec (.vshufpsVex128C5 pre d d (.reg r) imm8) s = .next t' →
    lane (t.readZmm d) 0 = lane (t'.readZmm d) 0 ∧
      ∀ e, 4 ≤ e → e < 16 → elem (t.readZmm d) e = elem (s.readZmm d) e ∧ elem (t'.readZmm d) e = 0

/-- R26 (derived in the spec): bits KL and above of the writemask register have no effect. That the instruction completes over the
other registers too rests on the premise that EnvFault (R156; the table of log 4, the model's choice) answers alike. -/
def Obligations.MaskBitsAboveKLIgnored : Prop :=
  ∀ (i : Instr) (s t : State) (k' : Vector (BitVec 64) 8),
    (∀ n : KReg, (k'[n.toNat]'n.isLt).extractLsb' 0 i.form.vl.kl = (s.readK n).extractLsb' 0 i.form.vl.kl) →
    SameEnvFault i s { s with k := k' } → exec i s = .next t → exec i { s with k := k' } = .next { t with k := k' }

/-! ## Frames and whole-machine rules -/

/-- R22 and R34 (the frame rule, derived in the spec): a completed form leaves every vector register but its destination,
every opmask and general register, every segment base, every flag, every byte of memory and of the program text, the
configuration and the answers of EnvFault as they were, for all eight constructors. -/
def Obligations.CompletedFormFrame : Prop :=
  ∀ (i : Instr) (s t : State), exec i s = .next t →
    (∀ n, n ≠ i.record.dest → t.readZmm n = s.readZmm n) ∧
    (∀ n, t.readK n = s.readK n) ∧ (∀ n, t.readGpr n = s.readGpr n) ∧ (∀ g, t.readSeg g = s.readSeg g) ∧
    flagsKept s t ∧ (∀ a, Memory.read t.mem a = Memory.read s.mem a) ∧
    (∀ a, Memory.read t.text a = Memory.read s.text a) ∧ t.cfg = s.cfg ∧ t.env = s.env

/-- R44: no form writes memory, so no step changes a byte of it. -/
def Obligations.NoStepWritesMemory : Prop :=
  ∀ s t, step s = .next t → t.mem = s.mem ∧ ∀ a, Memory.read t.mem a = Memory.read s.mem a

/-- R28, R86 and R140 (D9): a step that completes moves `pc` forward by the length of the instruction it fetched, 4 to 15
bytes, with no wrap and below the top of the address space (within 64 bits, log 16). No form branches. -/
def Obligations.StepAdvancesPc : Prop :=
  ∀ s t, s.cfg.aw ≤ 64 → step s = .next t →
    ∃ i, fetch s = .ok i ∧ t.pc.toNat = s.pc.toNat + i.len ∧ t.pc.toNat < 2 ^ s.cfg.aw ∧ 4 ≤ i.len ∧ i.len ≤ 15

/-- R106, R150 (with R153, R158): whether an instruction completes, faults or is refused, and with which fault or refusal, does
not depend on the contents of the vector and opmask registers, nor on the bytes of memory, as long as the same addresses are
mapped and EnvFault (R156; the table of log 4, the model's choice) answers alike: no element value raises anything, and none is
recorded in MXCSR. -/
def Obligations.OutcomeIgnoresElementValues : Prop :=
  ∀ (i : Instr) (s : State) (zmm' : Vector Vec 32) (k' : Vector (BitVec 64) 8) (mem' : Memory),
    (∀ a, Memory.read mem' a = none ↔ Memory.read s.mem a = none) →
    let s' := { s with zmm := zmm', k := k', mem := mem' }
    SameEnvFault i s s' →
    (∀ t, exec i s = .next t → t.mxcsr = s.mxcsr) ∧
    ((∃ t, exec i s = .next t) ↔ ∃ t, exec i s' = .next t) ∧
    (∀ f, exec i s = .fault f ↔ exec i s' = .fault f) ∧ (∀ r, exec i s = .refused r ↔ exec i s' = .refused r)

/-- R172: every refusal of a step is one of the situations the spec leaves without a meaning, under its own name: none says that
an instruction is not modelled. -/
def Obligations.NoInstructionUnmodelled : Prop :=
  ∀ s name, step s ≠ .refused (.notModelled name)

/-- A frame over steps: the configuration (R4, R33), the program text (R52) and the answers of EnvFault do not change during a
run, nor does any register but the vector registers and `pc` (R24, R27, R29, R34). -/
def Obligations.StepKeepsParameters : Prop :=
  ∀ s t, step s = .next t → t.cfg = s.cfg ∧ t.text = s.text ∧ t.env = s.env ∧ t.k = s.k ∧ t.gpr = s.gpr ∧ t.segBase = s.segBase ∧
    t.rflags = s.rflags ∧ t.mxcsr = s.mxcsr

/-! ## Faults and refusals (60_exceptions.md; the fault model is the spec's decision D7, log 9) -/

/-- R153 and R161: an instruction faults with exactly the fault that the table's first holding condition gives, and raises
nothing else. -/
def Obligations.FaultsAreThoseOfTheTable : Prop :=
  ∀ i s f, exec i s = .fault f ↔ FaultOf i s f

/-- R158 (D8), R2: a form one of whose feature flags is absent raises InvalidOpcode, whatever its operands. -/
def Obligations.AbsentFeatureFaults : Prop :=
  ∀ (i : Instr) (s : State),
    (match i with
      | .shufps .. => s.cfg.features.sse = false
      | .vshufpsVex128C5 .. => s.cfg.features.avx = false
      | .vshufpsVex128C4 .. => s.cfg.features.avx = false
      | .vshufpsVex256C5 .. => s.cfg.features.avx = false
      | .vshufpsVex256C4 .. => s.cfg.features.avx = false
      | .vshufpsEvex128 .. => s.cfg.features.avx512vl = false ∨ s.cfg.features.avx512f = false
      | .vshufpsEvex256 .. => s.cfg.features.avx512vl = false ∨ s.cfg.features.avx512f = false
      | .vshufpsEvex512 .. => s.cfg.features.avx512f = false) →
    exec i s = .fault .invalidOpcode

/-- R134 and R87 (D11, D18, log 10): an EVEX record with `z` and no writemask, with `b` and a register, or with K[0] as writemask
raises InvalidOpcode. -/
def Obligations.ReservedCombinationsFault : Prop :=
  ∀ pre d s1 src imm8 mask z b s,
    (z = true ∧ mask = none) ∨ (b = true ∧ ∃ r, src = RM.reg r) ∨ mask = some 0 →
    exec (.vshufpsEvex128 pre d s1 src imm8 mask z b) s = .fault .invalidOpcode ∧
    exec (.vshufpsEvex256 pre d s1 src imm8 mask z b) s = .fault .invalidOpcode ∧
    exec (.vshufpsEvex512 pre d s1 src imm8 mask z b) s = .fault .invalidOpcode

/-- R23, R24, R85 and R87 (D4, log 12): an instruction raises InvalidOpcode where a vector register it names (destination, first or
second source) is NVEC or above, 8 or above in 32-bit mode, or 16 or above in a legacy or VEX form; where its writemask is NMASK or
above; and in 32-bit mode where its memory operand has a base or index register 8 or above, or where it has a REX byte. -/
def Obligations.RegisterNumberOutOfRangeFaults : Prop :=
  ∀ (i : Instr) (s : State),
    (∃ n, Record.namesZmm i.record n ∧
      (s.cfg.nvec ≤ n.toNat ∨ (s.cfg.mode64 = false ∧ 8 ≤ n.toNat) ∨ (i.form.isEvex = false ∧ 16 ≤ n.toNat))) ∨
    (∃ n, i.record.mask = some n ∧ s.cfg.nmask ≤ n.toNat) ∨
    (s.cfg.mode64 = false ∧
      ((∃ m g, i.record.src2 = .mem m ∧ MemOperand.namesGpr g m ∧ 8 ≤ g.toNat) ∨
        ∃ pre d src imm8, i = .shufps pre true d src imm8)) →
    exec i s = .fault .invalidOpcode

/-- R156 (D7, log 4): where EnvFault holds for an instruction of this mode whose form is enabled, the fault is the one it names. -/
def Obligations.EnvFaultIsRaised : Prop :=
  ∀ i s e, FormEnabled i s → envFault i.form.excClass i s = some e → exec i s = .fault (.environment e)

/-- R28 (D9, log 17): an instruction that would complete but whose `pc + len` reaches `2^AW` is refused. -/
def Obligations.TextPastTopRefused : Prop :=
  ∀ i s f, FormEnabled i s → NoEnvFault i s → SecondSourceIs i s f → ¬ TextBelowTop i s →
    exec i s = .refused .textPastTop

/-- R77 (D23): a memory operand with an address-size byte in 32-bit mode is refused: 16-bit addressing. -/
def Obligations.Addressing16Refused : Prop :=
  ∀ (i : Instr) (s : State) (m : MemOperand), FormEnabled i s → NoEnvFault i s → i.record.src2 = .mem m →
    s.cfg.mode64 = false → addressSizeByte i.record.pre = true → exec i s = .refused .addressing16

/-! ## Decoding (30_encoding.md; byte-level layouts are GK, D10, log 22) -/

/-- Decode and encode agree: every well-formed instruction, with every operand at every value its encoding admits, is what the
decoder reads from its bytes, whatever follows them. -/
def Obligations.DecodeEncode : Prop :=
  ∀ (i : Instr) (vs : List Byte), i.wellFormed = true → decode (encode i ++ vs) = .ok i

/-- What the decoder reads is well-formed: it has an encoding, at most 15 bytes long (R83). -/
def Obligations.DecodedIsWellFormed : Prop :=
  ∀ vs i, decode vs = .ok i → i.wellFormed = true

/-- R83 and R86: the length of the record is the number of bytes the decoder consumed. -/
def Obligations.LengthIsBytesConsumed : Prop :=
  ∀ vs i rest, parse vs = .ok (i, rest) → vs.length = i.len + rest.length

/-- R81: the bytes of a decoded instruction, legacy prefixes and REX set aside, match its own row of the opcode table and no
other row. -/
def Obligations.DecodedMatchesItsRow : Prop :=
  ∀ vs i, decode vs = .ok i →
    ∀ n r, opcodeTable[n]? = some r → (r.hits (fixedBytes vs) = true ↔ n + 1 = i.row)

/-- R70: the bytes `C5 P …` and `C4 (P[7] ++ 1100001) (0 ++ P[6:0]) …` decode to the same record. -/
def Obligations.VexPrefixLengthsAgree : Prop :=
  ∀ (p : Byte) (vs : List Byte),
    (parse (0xC5 :: p :: vs)).map (fun x => (x.1.record, x.2)) =
      (parse (0xC4 :: ((p.extractLsb' 7 1 ++ 0x61#7 : BitVec 8)) :: (0#1 ++ p.extractLsb' 0 7 : BitVec 8) :: vs)).map
        (fun x => (x.1.record, x.2))

/-- R84: the W bit of a three-byte VEX prefix is ignored. -/
def Obligations.VexWIgnored : Prop :=
  ∀ (p1 p2 : Byte) (vs : List Byte), parse (0xC4 :: p1 :: p2 :: vs) = parse (0xC4 :: p1 :: (p2 ^^^ 0x80) :: vs)

/-- R87: with the opcode, map and pp of VSHUFPS and a register second source, an EVEX encoding is reserved exactly where W is 1, b is
1, z is 1 without a writemask, L'L is 11, or a fixed prefix bit is wrong; else it decodes. -/
def Obligations.EvexReservedEncodings : Prop :=
  ∀ (p0 p1 p2 m imm8 : Byte) (vs : List Byte), p0.extractLsb' 0 2 = 1 → p1.extractLsb' 0 2 = 0 →
    m.extractLsb' 6 2 = 3 →
    ((∃ r, decode (0x62 :: p0 :: p1 :: p2 :: 0xC6 :: m :: imm8 :: vs) = .error (.reserved r)) ↔
      (p1.getLsbD 7 = true ∨ p2.getLsbD 4 = true ∨ (p2.getLsbD 7 = true ∧ p2.extractLsb' 0 3 = 0) ∨
        p2.extractLsb' 5 2 = 3 ∨ p0.extractLsb' 2 2 ≠ 0 ∨ p1.getLsbD 2 = false)) ∧
    ((∃ i, decode (0x62 :: p0 :: p1 :: p2 :: 0xC6 :: m :: imm8 :: vs) = .ok i) ↔
      ¬ (p1.getLsbD 7 = true ∨ p2.getLsbD 4 = true ∨ (p2.getLsbD 7 = true ∧ p2.extractLsb' 0 3 = 0) ∨
        p2.extractLsb' 5 2 = 3 ∨ p0.extractLsb' 2 2 ≠ 0 ∨ p1.getLsbD 2 = false))

/-- R87 and R88: no byte sequence with a byte 66, F0, F2 or F3 among its legacy prefixes decodes to an instruction. -/
def Obligations.ForbiddenPrefixesRejected : Prop :=
  ∀ vs, RawPrefix.opSize ∈ (takePrefixes vs).1 ∨ RawPrefix.lockOrRep ∈ (takePrefixes vs).1 → ∀ i, decode vs ≠ .ok i

/-- The words that 95_test_vectors.md section 4 writes out decode to the records it gives. -/
def Obligations.SampleWordsDecode : Prop :=
  decode [0x0F, 0xC6, 0xC1, 0x1B] = .ok (.shufps [] false 0 (.reg 1) 0x1B) ∧
  decode [0x45, 0x0F, 0xC6, 0xCA, 0x1B] = .ok (.shufps [] true 9 (.reg 10) 0x1B) ∧
  decode [0xC5, 0xF0, 0xC6, 0xC2, 0x1B] = .ok (.vshufpsVex128C5 [] 0 1 (.reg 2) 0x1B) ∧
  decode [0xC4, 0x41, 0x74, 0xC6, 0xC2, 0x1B] = .ok (.vshufpsVex256C4 [] 8 1 (.reg 10) 0x1B) ∧
  decode [0x62, 0xF1, 0x74, 0xAA, 0xC6, 0x40, 0x02, 0x1B] =
    .ok (.vshufpsEvex256 [] 0 1 (.mem (.base 0 (.d8 2))) 0x1B (some 2) true false) ∧
  decode [0x62, 0x01, 0x0C, 0xC7, 0xC6, 0xFD, 0xFF] = .ok (.vshufpsEvex512 [] 31 30 (.reg 29) 0xFF (some 7) true false)

/-! ## Steps, the invariant and reset -/

/-- A step in 64-bit mode runs the instruction that the bytes of the text at `pc` decode to, and adds nothing to it. -/
def Obligations.StepRunsDecoded : Prop :=
  ∀ s i, s.cfg.mode64 = true → decode (textBytes s.text s.pc.toNat maxLen) = .ok i → step s = exec i s

/-- A step in 64-bit mode runs a well-formed instruction whose bytes stand in the text at `pc`, whatever stands after them. -/
def Obligations.StepRunsEncoded : Prop :=
  ∀ s i, s.cfg.mode64 = true → i.wellFormed = true → TextHolds s (encode i) → step s = exec i s

/-- R153 row 1 and R87: a step on a reserved encoding raises InvalidOpcode. -/
def Obligations.ReservedEncodingFaults : Prop :=
  ∀ s r, s.cfg.mode64 = true → decode (textBytes s.text s.pc.toNat maxLen) = .error (.reserved r) →
    step s = .fault .invalidOpcode

/-- R183 (D27): where no text stands at `pc` the run is over; R85 (D23): in 32-bit mode bytes are not decoded. -/
def Obligations.EndOfTextAndMode32Refused : Prop :=
  ∀ s, (Memory.read s.text s.pc.toNat = none → step s = .refused .endOfText) ∧
    (Memory.read s.text s.pc.toNat ≠ none → s.cfg.mode64 = false → step s = .refused .mode32Decode)

/-- The invariant (R5 with D3, R20, R24, R28, R40; the bounds on AW, MASKW, NVEC and NMASK and the zeros beyond a register file are
the model's, log 1, log 12, log 16 and log 20) is kept by every step. -/
def Obligations.StepKeepsInv : Prop :=
  ∀ s t, MachineInv s → step s = .next t → MachineInv t

/-- The state after reset meets the invariant; its values are the model's (log 1, log 2, log 3, log 24). -/
def Obligations.ResetMeetsInv : Prop := MachineInv State.reset

/-! ## Register operands -/

/-- R110 (exceptions), R154 and R155: with a register second source an instruction raises only the faults of the first group, invalid
opcode and device not available. R110 says it of SHUFPS; that the other forms are alike is the model's reading (log 4). -/
def Obligations.RegisterOperandFaults : Prop :=
  ∀ i s r f, i.record.src2 = .reg r → exec i s = .fault f →
    f = .invalidOpcode ∨ f = .environment .invalidOpcode ∨ f = .environment .deviceNotAvailable
end

