-- ==== Sys2Proof/Laws/Decode.lean ====
section
/-! SUPPORT. The decoder's parts: what each `take` reads from the bytes the encoder writes, and what its answer says of the
bytes it read (30_encoding.md R66 to R83, R88). -/

namespace Sys2Proof

/-! ## Sequencing -/

/-- Where a sequence of two answers, its first part does. -/
theorem bind_eq_ok {α β ε : Type} {x : Except ε α} {f : α → Except ε β} {v : β} (h : (x >>= f) = .ok v) :
    ∃ a, x = .ok a ∧ f a = .ok v := by
  cases x with
  | error e => cases h
  | ok a => exact ⟨a, rfl, h⟩

/-- Where decoding goes on after one byte, the byte was there. -/
theorem bind_takeByte {β : Type} {vs : List Byte} {f : Byte × List Byte → Except DecodeError β} {v : β}
    (h : (takeByte vs >>= f) = .ok v) : ∃ b rest, vs = b :: rest ∧ f (b, rest) = .ok v := by
  cases vs with
  | nil => cases h
  | cons b rest => exact ⟨b, rest, rfl, h⟩

/-- Where decoding goes on after a test, the test let it. -/
theorem rejectIf_eq_ok {c : Bool} {e : DecodeError} {u : Unit} (h : rejectIf c e = .ok u) : c = false := by
  cases c
  · rfl
  · cases h

/-! ## Fields of bytes and register numbers -/

theorem vreg_eq_bits : ∀ r : VReg, bit (r.getLsbD 4) ++ bit (r.getLsbD 3) ++ r.extractLsb' 0 3 = r := by decide

theorem greg_eq_bits : ∀ r : GReg, bit (r.getLsbD 3) ++ r.extractLsb' 0 3 = r := by decide

theorem modRMByte_mod : ∀ (m : BitVec 2) (a b : BitVec 3), (modRMByte m a b).extractLsb' 6 2 = m := by decide

theorem modRMByte_reg : ∀ (m : BitVec 2) (a b : BitVec 3), (modRMByte m a b).extractLsb' 3 3 = a := by decide

theorem modRMByte_rm : ∀ (m : BitVec 2) (a b : BitVec 3), (modRMByte m a b).extractLsb' 0 3 = b := by decide

theorem vreg_high_clear : ∀ d : VReg, d.toNat < 16 → d.getLsbD 4 = false := by decide

theorem vreg_low_of_bits : ∀ (x b : Bool) (v : BitVec 3),
    (x = false → (bit x ++ bit b ++ v : VReg).toNat < 16) ∧
    (x = false → b = false → (bit x ++ bit b ++ v : VReg).toNat < 8) := by decide

theorem greg_low_of_bits : ∀ (x : Bool) (v : BitVec 3), (bit x ++ v : GReg).extractLsb' 0 3 = v ∧
    (bit x ++ v : GReg).toNat < 16 ∧ (x = false → (bit x ++ v : GReg).toNat < 8) := by decide

/-! ## Prefix bytes -/

/-- The prefixes of an encoded instruction are read back, up to the first byte that is none. -/
theorem takePrefixes_prefixBytes (pre : List LegacyPrefix) (v : Byte) (vs : List Byte) (h : rawPrefixOf v = none) :
    takePrefixes (prefixBytes pre ++ v :: vs) = (pre.map .allowed, v :: vs) := by
  induction pre with
  | nil => simp [prefixBytes, takePrefixes, h]
  | cons p pre ih =>
    have hp : rawPrefixOf p.byte = some (.allowed p) := by rcases p with (_ | _ | _ | _ | _ | _) | _ <;> decide
    simp only [prefixBytes, List.map_cons, List.cons_append, takePrefixes, hp] at ih ⊢
    rw [ih]

@[simp] theorem allowedPrefixes_map (pre : List LegacyPrefix) : allowedPrefixes (pre.map .allowed) = pre := by
  simp [allowedPrefixes, List.filterMap_map, Function.comp_def, RawPrefix.legacy?]

@[simp] theorem vexPrefixesOk_map (pre : List LegacyPrefix) : vexPrefixesOk (pre.map .allowed) = true := by
  simp [vexPrefixesOk, RawPrefix.legacy?]

/-- No byte is lost between the prefixes and the rest. -/
theorem takePrefixes_length (vs : List Byte) : vs.length = (takePrefixes vs).1.length + (takePrefixes vs).2.length := by
  induction vs with
  | nil => rfl
  | cons v vs ih =>
    unfold takePrefixes
    cases rawPrefixOf v with
    | none => simp
    | some p => simp; omega

/-- A REX byte is not among the prefix bytes. -/
theorem takePrefixes_noRex (vs : List Byte) : RawPrefix.rexByte ∉ (takePrefixes vs).1 := by
  induction vs with
  | nil => simp [takePrefixes]
  | cons v vs ih =>
    unfold takePrefixes
    cases hv : rawPrefixOf v with
    | none => simp
    | some p =>
      simp only [List.mem_cons, not_or]
      refine ⟨?_, ih⟩
      rintro rfl
      unfold rawPrefixOf at hv
      repeat' split at hv
      all_goals cases hv

/-- Where the prefixes end within the first `n` bytes, the bytes after those do not matter to them. -/
theorem takePrefixes_take (vs : List Byte) (n : Nat) (h : (takePrefixes (vs.take n)).2 ≠ []) :
    (takePrefixes vs).1 = (takePrefixes (vs.take n)).1 ∧
      ∃ rest, (takePrefixes vs).2 = (takePrefixes (vs.take n)).2 ++ rest := by
  induction vs generalizing n with
  | nil => simp [takePrefixes] at h
  | cons v vs ih =>
    cases n with
    | zero => simp [takePrefixes] at h
    | succ n =>
      rw [List.take_succ_cons] at h ⊢
      unfold takePrefixes at h ⊢
      cases hv : rawPrefixOf v with
      | none => exact ⟨rfl, vs.drop n, by simp⟩
      | some p =>
        rw [hv] at h
        obtain ⟨h1, h2⟩ := ih n h
        exact ⟨congrArg (p :: ·) h1, h2⟩

/-- Prefixes that are all allowed keep their number. -/
theorem allowedPrefixes_length {raw : List RawPrefix} (h : vexPrefixesOk raw = true) :
    (allowedPrefixes raw).length = raw.length := by
  induction raw with
  | nil => rfl
  | cons p raw ih =>
    simp only [vexPrefixesOk, List.all_cons, Bool.and_eq_true] at h
    obtain ⟨q, hq⟩ := Option.isSome_iff_exists.1 h.1
    simp only [allowedPrefixes, List.filterMap_cons, hq, List.length_cons]
    rw [← ih h.2]; rfl

/-! ## ModRM, SIB and displacement, read from what the encoder writes -/

theorem bytes_of_word (v : BitVec 32) :
    v.extractLsb' 24 8 ++ v.extractLsb' 16 8 ++ v.extractLsb' 8 8 ++ v.extractLsb' 0 8 = v := by
  apply BitVec.eq_of_getLsbD_eq
  intro i hi
  simp only [BitVec.getLsbD_append, BitVec.getLsbD_extractLsb']
  split_ifs with h1 h2 h3
  · simp [h1]
  · simp only [h2, decide_true, Bool.true_and]; congr 1; omega
  · simp only [h3, decide_true, Bool.true_and]; congr 1; omega
  · rw [decide_eq_true (by omega), Bool.true_and]; congr 1; omega

theorem take32_bytes (v : BitVec 32) (vs : List Byte) : take32 ((Disp.d32 v).bytes ++ vs) = .ok (v, vs) := by
  simp only [Disp.bytes, List.cons_append, List.nil_append, take32, bytes_of_word]

theorem takeDisp_bytes (d : Disp) (vs : List Byte) : takeDisp d.mod (d.bytes ++ vs) = .ok (d, vs) := by
  cases d with
  | absent => rfl
  | d8 v => rfl
  | d32 v =>
    show takeDisp 2 _ = _
    unfold takeDisp
    rw [if_neg (by decide), if_neg (by decide), take32_bytes]; rfl

theorem Disp.mod_ne_three (d : Disp) : d.mod ≠ 3 := by cases d <;> simp [Disp.mod]

theorem Disp.fitsBase_iff {d : Disp} {b : GReg} (h : d.fitsBase b = true) :
    ¬ (d.mod = 0 ∧ b.extractLsb' 0 3 = 5) := by
  rintro ⟨h1, h2⟩
  cases d <;> simp_all [Disp.fitsBase, Disp.mod]

theorem index_of_fields {idx : Option Index} (h : idx.all Index.ok = true) :
    (if bit (indexX idx) ++ indexField idx = (4 : GReg) then none
      else some ⟨bit (indexX idx) ++ indexField idx, ssField idx⟩ : Option Index) = idx := by
  cases idx with
  | none => rfl
  | some i =>
    simp only [indexX, indexField, ssField, greg_eq_bits]
    rw [if_neg]
    simpa [Index.ok] using h

/-- The r/m operand the encoder writes is the one that is read. -/
theorem takeModRM_bytes (src : RM) (reg : BitVec 3) (xReg : Bool) (vs : List Byte) (hok : src.ok = true)
    (hx : ∀ r, src = .reg r → xReg = r.getLsbD 4) :
    takeModRM src.bitX src.bitB xReg (src.bytes reg ++ vs) = .ok (reg, src, vs) := by
  match src, hok, hx with
  | .reg r, _, hx =>
    simp only [RM.bytes, List.cons_append, List.nil_append, takeModRM, modRMByte_mod, modRMByte_reg, modRMByte_rm,
      if_true, RM.bitB, hx r rfl, vreg_eq_bits]
  | .mem (.base b d), hok, _ =>
    simp only [RM.ok, MemOperand.ok, Bool.and_eq_true, bne_iff_ne, ne_eq] at hok
    simp only [RM.bytes, List.cons_append, takeModRM, modRMByte_mod, modRMByte_reg, modRMByte_rm, RM.bitB, RM.bitX,
      takeMem, d.mod_ne_three, hok.1, Disp.fitsBase_iff hok.2, if_false, takeDisp_bytes, greg_eq_bits]
    rfl
  | .mem (.ripRel d), _, _ =>
    simp only [RM.bytes, List.cons_append, takeModRM, modRMByte_mod, modRMByte_reg, modRMByte_rm, RM.bitB, RM.bitX,
      takeMem]
    rw [if_neg (by decide), if_neg (by decide), if_pos (by decide), take32_bytes]; rfl
  | .mem (.sib b idx d), hok, _ =>
    simp only [RM.ok, MemOperand.ok, Bool.and_eq_true] at hok
    simp only [RM.bytes, List.cons_append, takeModRM, modRMByte_mod, modRMByte_reg, modRMByte_rm, RM.bitB, RM.bitX,
      takeMem, d.mod_ne_three, if_true, if_false, takeSib, Disp.fitsBase_iff hok.1, takeDisp_bytes,
      index_of_fields hok.2, greg_eq_bits]
    rfl
  | .mem (.sibNoBase idx d), hok, _ =>
    simp only [RM.ok, MemOperand.ok] at hok
    simp only [RM.bytes, List.cons_append, takeModRM, modRMByte_mod, modRMByte_reg, modRMByte_rm, RM.bitB, RM.bitX,
      takeMem]
    rw [if_neg (by decide)]
    simp only [takeSib, modRMByte_mod, modRMByte_reg, modRMByte_rm, if_true, and_self, take32_bytes, index_of_fields hok]
    rfl

/-! ## ModRM, SIB and displacement: what an answer says of the bytes -/

theorem take32_eq_ok {vs rest : List Byte} {v : BitVec 32} (h : take32 vs = .ok (v, rest)) :
    vs.length = 4 + rest.length := by
  unfold take32 at h
  split at h
  · simp only [Except.ok.injEq, Prod.mk.injEq] at h
    obtain ⟨-, rfl⟩ := h
    simp only [List.length_cons]; omega
  · cases h

theorem takeDisp_eq_ok {mod : BitVec 2} {vs rest : List Byte} {d : Disp} (h : takeDisp mod vs = .ok (d, rest)) :
    vs.length = d.len + rest.length ∧ (d = .absent → mod = 0) := by
  unfold takeDisp at h
  split_ifs at h with h0 h1
  · cases h; exact ⟨by simp [Disp.len], fun _ => h0⟩
  · cases vs with
    | nil => cases h
    | cons v vs => cases h; exact ⟨by simp [Disp.len]; omega, nofun⟩
  · obtain ⟨⟨v, r⟩, hv, h⟩ := bind_eq_ok h
    cases h
    exact ⟨take32_eq_ok hv, nofun⟩

theorem index_fields_ok {index : GReg} {ss : BitVec 2} :
    (if index = 4 then none else some ⟨index, ss⟩ : Option Index).all Index.ok = true := by
  split_ifs with h
  · rfl
  · simpa [Index.ok] using h

theorem index_fields_below {index : GReg} {ss : BitVec 2} {n : Nat} (h : index.toNat < n) :
    (if index = 4 then none else some ⟨index, ss⟩ : Option Index).all (fun i => decide (i.reg.toNat < n)) = true := by
  split_ifs
  · rfl
  · simpa using h

theorem takeSib_eq_ok {x b : Bool} {mod : BitVec 2} {vs rest : List Byte} {m : MemOperand}
    (h : takeSib x b mod vs = .ok (m, rest)) :
    vs.length = m.len + rest.length ∧ m.ok = true ∧ m.gprsBelow 16 = true ∧
      (x = false → b = false → m.gprsBelow 8 = true) := by
  unfold takeSib at h
  cases vs with
  | nil => cases h
  | cons v vs =>
    dsimp only at h
    obtain ⟨i1, i2, i3⟩ := greg_low_of_bits x (v.extractLsb' 3 3)
    obtain ⟨b1, b2, b3⟩ := greg_low_of_bits b (v.extractLsb' 0 3)
    have o1 := @index_fields_ok (bit x ++ v.extractLsb' 3 3) (v.extractLsb' 6 2)
    have o2 := @index_fields_below (bit x ++ v.extractLsb' 3 3) (v.extractLsb' 6 2)
    generalize (if bit x ++ v.extractLsb' 3 3 = (4 : GReg) then none
      else some ⟨bit x ++ v.extractLsb' 3 3, v.extractLsb' 6 2⟩ : Option Index) = idx at *
    split at h
    · obtain ⟨⟨d, r⟩, hv, h⟩ := bind_eq_ok h
      cases h
      exact ⟨by simp [MemOperand.len, take32_eq_ok hv]; omega, o1, o2 i2, fun hx _ => o2 (i3 hx)⟩
    · rename_i h0
      obtain ⟨⟨d, r⟩, hv, h⟩ := bind_eq_ok h
      cases h
      obtain ⟨hl, hd⟩ := takeDisp_eq_ok hv
      refine ⟨by simp [MemOperand.len, hl]; omega, ?_, ?_, ?_⟩
      · simp only [MemOperand.ok, Bool.and_eq_true]
        refine ⟨?_, o1⟩
        simp only [Disp.fitsBase, Bool.or_eq_true, bne_iff_ne, ne_eq, b1]
        by_cases hda : d = .absent
        · right; intro h5; exact h0 ⟨hd hda, h5⟩
        · left; exact hda
      · simp only [MemOperand.gprsBelow, Bool.and_eq_true, decide_eq_true_eq]; exact ⟨b2, o2 i2⟩
      · intro hx hb
        simp only [MemOperand.gprsBelow, Bool.and_eq_true, decide_eq_true_eq]; exact ⟨b3 hb, o2 (i3 hx)⟩

theorem takeMem_eq_ok {x b : Bool} {mod : BitVec 2} {rm : BitVec 3} {vs rest : List Byte} {m : MemOperand}
    (h : takeMem x b mod rm vs = .ok (m, rest)) :
    vs.length = m.len + rest.length ∧ m.ok = true ∧ m.gprsBelow 16 = true ∧
      (x = false → b = false → m.gprsBelow 8 = true) := by
  unfold takeMem at h
  split_ifs at h with h0 h1
  · exact takeSib_eq_ok h
  · obtain ⟨⟨d, r⟩, hv, h⟩ := bind_eq_ok h
    cases h
    exact ⟨take32_eq_ok hv, rfl, rfl, fun _ _ => rfl⟩
  · obtain ⟨⟨d, r⟩, hv, h⟩ := bind_eq_ok h
    cases h
    obtain ⟨hl, hd⟩ := takeDisp_eq_ok hv
    obtain ⟨b1, b2, b3⟩ := greg_low_of_bits b rm
    refine ⟨hl, ?_, by simpa [MemOperand.gprsBelow] using b2, fun _ hb => by
      simpa [MemOperand.gprsBelow] using b3 hb⟩
    simp only [MemOperand.ok, Disp.fitsBase, Bool.and_eq_true, Bool.or_eq_true, bne_iff_ne, ne_eq, b1]
    refine ⟨h0, ?_⟩
    by_cases hda : d = .absent
    · right; intro h5; exact h1 ⟨hd hda, h5⟩
    · left; exact hda

/-- An r/m operand that is read accounts for its bytes, has an encoding, and names registers its extension bits allow. -/
theorem takeModRM_eq_ok {x b xReg : Bool} {vs rest : List Byte} {reg : BitVec 3} {src : RM}
    (h : takeModRM x b xReg vs = .ok (reg, src, rest)) :
    vs.length = src.len + rest.length ∧ src.ok = true ∧ (xReg = false → src.regsBelow 16 16 = true) ∧
      (xReg = false → x = false → b = false → src.regsBelow 8 8 = true) := by
  unfold takeModRM at h
  cases vs with
  | nil => cases h
  | cons v vs =>
    dsimp only at h
    split_ifs at h with h0
    · cases h
      obtain ⟨v1, v2⟩ := vreg_low_of_bits xReg b (v.extractLsb' 0 3)
      exact ⟨by simp [RM.len]; omega, rfl, fun h => by simpa [RM.regsBelow] using v1 h, fun h _ hb => by
        simpa [RM.regsBelow] using v2 h hb⟩
    · obtain ⟨⟨m, r⟩, hv, h⟩ := bind_eq_ok h
      cases h
      obtain ⟨h1, h2, h3, h4⟩ := takeMem_eq_ok hv
      exact ⟨by simp [RM.len, h1]; omega, h2, fun _ => h3, fun _ => h4⟩

end Sys2Proof
end

