-- ==== Sys2Proof/Laws/Vector.lean ====
section
/-! SUPPORT. Elements and lanes of vector values: what each builder of a value holds in each element, so that no later
proof goes down to bits. -/

namespace Sys2Proof.Machine

/-- The slice of a concatenation that lies in its low part. -/
theorem extract_append_low {m n : Nat} (a : BitVec m) (b : BitVec n) (k w : Nat) (h : k + w ≤ n) :
    (a ++ b).extractLsb' k w = b.extractLsb' k w := by
  ext i hi
  simp only [BitVec.getElem_extractLsb', BitVec.getLsbD_append]
  rw [if_pos (by omega)]

/-- The slice of a concatenation that lies in its high part. -/
theorem extract_append_high {m n : Nat} (a : BitVec m) (b : BitVec n) (k w : Nat) (h : n ≤ k) :
    (a ++ b).extractLsb' k w = a.extractLsb' (k - n) w := by
  ext i hi
  simp only [BitVec.getElem_extractLsb', BitVec.getLsbD_append]
  rw [if_neg (by omega)]
  congr 1
  omega

/-- A slice of a slice. -/
theorem extract_extract {m : Nat} (a : BitVec m) (k w k' w' : Nat) (h : k' + w' ≤ w) :
    (a.extractLsb' k w).extractLsb' k' w' = a.extractLsb' (k + k') w' := by
  ext i hi
  simp only [BitVec.getElem_extractLsb', BitVec.getLsbD_extractLsb']
  rw [Nat.add_assoc]
  simp [show k' + i < w by omega]

/-- A slice of zero is zero. -/
@[simp] theorem extract_zero {m : Nat} (k w : Nat) : (0 : BitVec m).extractLsb' k w = 0 := by
  ext i hi
  simp

/-- A lane of a value built from lanes. -/
theorem lane_ofLanes (f : Nat → Lane) (n : Nat) (h : n < 4) : lane (ofLanes f) n = f n := by
  unfold lane ofLanes
  obtain rfl | rfl | rfl | rfl : n = 0 ∨ n = 1 ∨ n = 2 ∨ n = 3 := by omega
  · rw [extract_append_low _ _ _ _ (by omega)]; simp
  · rw [extract_append_high _ _ _ _ (by omega), extract_append_low _ _ _ _ (by omega)]; simp
  · rw [extract_append_high _ _ _ _ (by omega), extract_append_high _ _ _ _ (by omega),
      extract_append_low _ _ _ _ (by omega)]; simp
  · rw [extract_append_high _ _ _ _ (by omega), extract_append_high _ _ _ _ (by omega),
      extract_append_high _ _ _ _ (by omega)]; simp

/-- An element is an element of its lane. -/
theorem elem_eq_lane (v : Vec) (e : Nat) : elem v e = (lane v (e / 4)).extractLsb' (32 * (e % 4)) 32 := by
  unfold elem lane
  rw [extract_extract _ _ _ _ _ (by omega)]
  congr 1
  omega

/-- An element of a lane is an element of the value. -/
theorem lane_elem (v : Vec) (n p : Nat) (h : p < 4) : (lane v n).extractLsb' (32 * p) 32 = elem v (4 * n + p) := by
  unfold elem lane
  rw [extract_extract _ _ _ _ _ (by omega)]
  congr 1
  omega

/-- The elements of a lane built from four. -/
theorem extract_four (a b c d : Elem) (p : Nat) (h : p < 4) :
    (a ++ b ++ c ++ d : Lane).extractLsb' (32 * p) 32 =
      if p = 0 then d else if p = 1 then c else if p = 2 then b else a := by
  obtain rfl | rfl | rfl | rfl : p = 0 ∨ p = 1 ∨ p = 2 ∨ p = 3 := by omega
  · rw [extract_append_low _ _ _ _ (by omega)]; simp
  · rw [extract_append_high _ _ _ _ (by omega), extract_append_low _ _ _ _ (by omega)]; simp
  · rw [extract_append_high _ _ _ _ (by omega), extract_append_high _ _ _ _ (by omega),
      extract_append_low _ _ _ _ (by omega)]; simp
  · rw [extract_append_high _ _ _ _ (by omega), extract_append_high _ _ _ _ (by omega),
      extract_append_high _ _ _ _ (by omega)]; simp

/-- An element of a value built from elements. -/
theorem elem_ofElems (f : Nat → Elem) (e : Nat) (h : e < 16) : elem (ofElems f) e = f e := by
  rw [elem_eq_lane, ofElems, lane_ofLanes _ _ (by omega), extract_four _ _ _ _ _ (by omega)]
  split_ifs <;> congr 1 <;> omega

/-- Two values with the same elements are the same. -/
theorem ext_elem {a b : Vec} (h : ∀ e, e < 16 → elem a e = elem b e) : a = b := by
  ext i hi
  have he := congrArg (fun v => v.getLsbD (i % 32)) (h (i / 32) (by omega))
  simp only [elem, BitVec.getLsbD_extractLsb', Nat.mod_lt i (show 0 < 32 by omega), decide_true,
    Bool.true_and] at he
  rw [show 32 * (i / 32) + i % 32 = i by omega] at he
  simpa [BitVec.getLsbD_eq_getElem, hi] using he

/-- The number of elements and of lanes of a length. -/
theorem vl_bits_eq (vl : VL) : vl.bits = 32 * vl.kl ∧ vl.kl = 4 * vl.lanes ∧ vl.bytes = 4 * vl.kl ∧ vl.kl ≤ 16 := by
  cases vl <;> decide

/-- Elements below a length that is cut off stay, the others are zero. -/
theorem elem_low (vl : VL) (v : Vec) (e : Nat) : elem (low vl.bits v) e = if e < vl.kl then elem v e else 0 := by
  obtain ⟨hb, -, -, hk⟩ := vl_bits_eq vl
  unfold elem low
  ext i hi
  simp only [BitVec.getElem_extractLsb', BitVec.getLsbD_setWidth]
  split_ifs with h
  · simp only [BitVec.getElem_extractLsb', show 32 * e + i < 512 by omega, show 32 * e + i < vl.bits by omega,
      decide_true, Bool.true_and]
  · simp [show ¬ 32 * e + i < vl.bits by omega]

/-- A value with no element from KL up is its own low part. -/
theorem low_eq_self (vl : VL) (v : Vec) (h : ∀ e, vl.kl ≤ e → e < 16 → elem v e = 0) : low vl.bits v = v := by
  apply ext_elem
  intro e he
  rw [elem_low]
  split_ifs with hk
  · rfl
  · exact (h e (by omega) he).symm

/-- Cutting off twice at the same length. -/
@[simp] theorem low_low (n : Nat) (v : Vec) : low n (low n v) = low n v := by
  unfold low
  ext i hi
  simp only [BitVec.getElem_setWidth, BitVec.getLsbD_setWidth]
  by_cases h : i < n <;> simp [h, hi]

/-- The lanes of the legacy form's write: the low one is written, the others stay. -/
theorem elem_writeXmm (v : Vec) (q : Lane) (e : Nat) :
    elem (v.extractLsb' 128 384 ++ q) e = if e < 4 then q.extractLsb' (32 * e) 32 else elem v e := by
  unfold elem
  split_ifs with h
  · rw [extract_append_low _ _ _ _ (by omega)]
  · rw [extract_append_high _ _ _ _ (by omega)]
    ext i hi
    simp only [BitVec.getElem_extractLsb', BitVec.getLsbD_extractLsb']
    rw [show 128 + (32 * e - 128 + i) = 32 * e + i by omega]
    by_cases hb : 32 * e - 128 + i < 384
    · simp [hb]
    · simp only [hb, decide_false, Bool.false_and]
      exact (BitVec.getLsbD_of_ge _ _ (by omega)).symm

/-- The elements of the broadcast (43_vshufps_evex.md R131). -/
theorem elem_broadcast (vl : VL) (w : Elem) (e : Nat) (h : e < 16) :
    elem (broadcast vl w) e = if e < vl.kl then w else 0 := by
  rw [broadcast, elem_ofElems _ _ h]

/-- The elements of the masked write-back (43_vshufps_evex.md R132). -/
theorem elem_blend (vl : VL) (m : Nat → Bool) (z : Bool) (tmp old : Vec) (e : Nat) (h : e < 16) :
    elem (blend vl m z tmp old) e =
      if e < vl.kl then (if m e then elem tmp e else if z then 0 else elem old e) else 0 := by
  rw [blend, elem_ofElems _ _ h]

/-- The masked write-back depends only on the elements and mask bits below KL. -/
theorem blend_congr {vl : VL} {m m' : Nat → Bool} {z : Bool} {tmp tmp' old old' : Vec}
    (hm : ∀ j, j < vl.kl → m j = m' j) (ht : ∀ j, j < vl.kl → elem tmp j = elem tmp' j)
    (ho : ∀ j, j < vl.kl → elem old j = elem old' j) : blend vl m z tmp old = blend vl m' z tmp' old' := by
  apply ext_elem
  intro e he
  rw [elem_blend _ _ _ _ _ _ he, elem_blend _ _ _ _ _ _ he]
  by_cases h : e < vl.kl
  · simp only [if_pos h, hm e h, ht e h, ho e h]
  · simp only [if_neg h]

end Sys2Proof.Machine
end

