-- ==== Sys2Proof/Laws/Memory.lean ====
section
/-! SUPPORT. The laws of memory: a byte written reads back, every other byte stays, every operation keeps the canonical
form, equal reads are equal memories; the bytes of a little-endian value. -/

namespace Sys2Proof.Machine

/-- A byte written, read back; every other byte as before. -/
theorem read_write (m : Memory) (a b : Nat) (v : Byte) :
    Memory.read (Memory.write m a v) b = if b = a then some v else Memory.read m b := by
  induction m with
  | nil => simp [Memory.write, Memory.read, eq_comm]
  | cons c m ih =>
    simp only [Memory.write]
    by_cases h1 : a < c.1
    · rw [if_pos h1]
      by_cases hb : b = a
      · simp [Memory.read, hb]
      · simp [Memory.read, hb, Ne.symm hb]
    · rw [if_neg h1]
      by_cases h2 : a = c.1
      · rw [if_pos h2]
        by_cases hb : b = a
        · simp [Memory.read, hb]
        · simp [Memory.read, hb, Ne.symm hb, show c.1 ≠ b from fun h => hb (by omega)]
      · rw [if_neg h2]
        simp only [Memory.read, ih]
        by_cases hb : b = a
        · simp [hb, Ne.symm h2]
        · simp [hb]

/-- The entries of a memory after a write are the old ones and the new one. -/
theorem mem_write {m : Memory} {a : Nat} {v : Byte} {x : Host.Cell} (h : x ∈ Memory.write m a v) :
    x ∈ m ∨ x = (a, v) := by
  induction m with
  | nil => simpa [Memory.write] using h
  | cons c m ih =>
    simp only [Memory.write] at h
    split_ifs at h with h1 h2
    · simp only [List.mem_cons] at h ⊢; tauto
    · simp only [List.mem_cons] at h ⊢; tauto
    · simp only [List.mem_cons] at h ⊢
      rcases h with h | h
      · tauto
      · rcases ih h with h | h <;> tauto

/-- A write keeps the canonical form. -/
theorem write_wf {m : Memory} (h : Memory.wf m) (a : Nat) (v : Byte) : Memory.wf (Memory.write m a v) := by
  induction m with
  | nil => simp [Memory.wf, Memory.write]
  | cons c m ih =>
    obtain ⟨hc, hm⟩ := List.pairwise_cons.1 h
    simp only [Memory.write]
    split_ifs with h1 h2
    · refine List.pairwise_cons.2 ⟨fun x hx => ?_, h⟩
      rcases List.mem_cons.1 hx with rfl | hx
      · exact h1
      · exact h1.trans (hc x hx)
    · subst h2
      exact List.pairwise_cons.2 ⟨hc, hm⟩
    · refine List.pairwise_cons.2 ⟨fun x hx => ?_, ih hm⟩
      rcases mem_write hx with hx | rfl
      · exact hc x hx
      · show c.1 < a; omega

/-- Writing a list of bytes keeps the canonical form. -/
theorem writeBytes_wf {m : Memory} (h : Memory.wf m) (a : Nat) (vs : List Byte) :
    Memory.wf (Memory.writeBytes m a vs) := by
  induction vs generalizing m a with
  | nil => exact h
  | cons v vs ih => exact ih (write_wf h a v) _

/-- The memory and the text of the machine right after reset are in canonical form. -/
theorem reset_wf : Memory.wf State.reset.mem ∧ Memory.wf State.reset.text := by decide

/-- Placing a table word keeps the text in canonical form. -/
theorem withFetchWord_wf {s : State} (h : Memory.wf s.text) (nbits w : Nat) :
    Memory.wf (s.withFetchWord nbits w).text := writeBytes_wf h _ _

/-- An address below every listed one is not listed. -/
theorem read_none_of_lt {m : Memory} {a : Nat} (h : ∀ c ∈ m, a < c.1) : Memory.read m a = none := by
  induction m with
  | nil => rfl
  | cons c m ih =>
    have hc := h c (by simp)
    simp only [Memory.read]
    rw [if_neg (by omega)]
    exact ih fun x hx => h x (by simp [hx])

/-- Two memories in canonical form that read alike are the same list. -/
theorem ext_read {m m' : Memory} (h : Memory.wf m) (h' : Memory.wf m')
    (e : ∀ a, Memory.read m a = Memory.read m' a) : m = m' := by
  induction m generalizing m' with
  | nil =>
    cases m' with
    | nil => rfl
    | cons c m' => simpa [Memory.read, unlisted] using e c.1
  | cons c m ih =>
    cases m' with
    | nil => simpa [Memory.read, unlisted] using e c.1
    | cons c' m' =>
      obtain ⟨hc, hm⟩ := List.pairwise_cons.1 h
      obtain ⟨hc', hm'⟩ := List.pairwise_cons.1 h'
      have hcc : c.1 = c'.1 := by
        rcases Nat.lt_trichotomy c.1 c'.1 with hlt | heq | hgt
        · have := e c.1
          rw [read_none_of_lt (m := c' :: m') (fun x hx => by
            rcases List.mem_cons.1 hx with rfl | hx
            · exact hlt
            · exact hlt.trans (hc' x hx))] at this
          simp [Memory.read] at this
        · exact heq
        · have := e c'.1
          rw [read_none_of_lt (m := c :: m) (fun x hx => by
            rcases List.mem_cons.1 hx with rfl | hx
            · exact hgt
            · exact hgt.trans (hc x hx))] at this
          simp [Memory.read] at this
      have hv : c.2 = c'.2 := by simpa [Memory.read, hcc] using e c.1
      have hce : c = c' := Prod.ext hcc hv
      subst hce
      congr 1
      apply ih hm hm'
      intro a
      by_cases ha : c.1 = a
      · subst ha
        rw [read_none_of_lt hc, read_none_of_lt hc']
      · simpa [Memory.read, ha] using e a

/-- Reading bytes: all in the domain, or one of them is not. -/
theorem readBytes_eq_some {m : Memory} {a n : Nat} {vs : List Byte} :
    Memory.readBytes m a n = some vs ↔
      vs.length = n ∧ ∀ k, (h : k < vs.length) → Memory.read m (a + k) = some vs[k] := by
  induction n generalizing a vs with
  | zero =>
    simp only [Memory.readBytes, Option.some.injEq]
    constructor
    · rintro rfl; simp
    · rintro ⟨h, -⟩; exact (List.length_eq_zero_iff.1 h).symm
  | succ n ih =>
    simp only [Memory.readBytes]
    cases hr : Memory.read m a with
    | none =>
      simp only [reduceCtorEq, false_iff, not_and, not_forall]
      intro hl
      exact ⟨0, by omega, by simp [hr]⟩
    | some v =>
      cases hb : Memory.readBytes m (a + 1) n with
      | none =>
        simp only [reduceCtorEq, false_iff, not_and]
        intro hl hall
        cases vs with
        | nil => simp at hl
        | cons w ws =>
          have : Memory.readBytes m (a + 1) n = some ws := ih.2 ⟨by simpa using hl, fun k hk => by
            have := hall (k + 1) (by simpa using hk)
            rw [show a + (k + 1) = a + 1 + k by omega] at this
            simpa using this⟩
          simp [hb] at this
      | some ws =>
        simp only [Option.some.injEq]
        obtain ⟨hl, hall⟩ := ih.1 hb
        constructor
        · rintro rfl
          refine ⟨by simp [hl], fun k hk => ?_⟩
          cases k with
          | zero => simpa using hr
          | succ k =>
            rw [show a + (k + 1) = a + 1 + k by omega]
            simpa using hall k (by simpa using hk)
        · rintro ⟨hl', hall'⟩
          cases vs with
          | nil => simp at hl'
          | cons w ws' =>
            have h0 := hall' 0 (by simp)
            have htail : Memory.readBytes m (a + 1) n = some ws' := ih.2 ⟨by simpa using hl', fun k hk => by
              have := hall' (k + 1) (by simpa using hk)
              rw [show a + (k + 1) = a + 1 + k by omega] at this
              simpa using this⟩
            simp only [hb, Option.some.injEq] at htail
            simp only [Nat.add_zero, hr, List.getElem_cons_zero, Option.some.injEq] at h0
            rw [h0, htail]

/-- Reading bytes fails exactly where one of them is not mapped. -/
theorem readBytes_eq_none {m : Memory} {a n : Nat} : Memory.readBytes m a n = none ↔ Unmapped m a n := by
  unfold Unmapped
  induction n generalizing a with
  | zero => simp [Memory.readBytes]
  | succ n ih =>
    simp only [Memory.readBytes]
    cases hr : Memory.read m a with
    | none => simp only [true_iff]; exact ⟨0, by omega, by simpa using hr⟩
    | some v =>
      have key : (∃ k, k < n ∧ Memory.read m (a + 1 + k) = none) ↔
          ∃ k, k < n + 1 ∧ Memory.read m (a + k) = none := by
        constructor
        · rintro ⟨k, hk, h⟩; exact ⟨k + 1, by omega, by rw [← h]; congr 1; omega⟩
        · rintro ⟨k, hk, h⟩
          cases k with
          | zero => simp [hr] at h
          | succ k => exact ⟨k, by omega, by rw [← h]; congr 1; omega⟩
      rw [← key, ← ih]
      cases Memory.readBytes m (a + 1) n <;> simp

/-- The bytes of a little-endian value. -/
theorem leValue_byte (vs : List Byte) (k : Nat) (h : k < vs.length) (h64 : vs.length ≤ 64) :
    (leValue vs).extractLsb' (8 * k) 8 = vs[k] := by
  induction vs generalizing k with
  | nil => simp at h
  | cons v vs ih =>
    simp only [List.length_cons] at h h64
    ext i hi
    simp only [leValue, BitVec.getElem_extractLsb', BitVec.getLsbD_or, BitVec.getLsbD_shiftLeft,
      BitVec.getLsbD_setWidth, show 8 * k + i < 512 by omega, decide_true, Bool.true_and]
    cases k with
    | zero => simp [hi, BitVec.getLsbD_eq_getElem]
    | succ k =>
      have := congrArg (fun w => w.getLsbD i) (ih k (by omega) (by omega))
      simp only [BitVec.getLsbD_extractLsb', hi, decide_true, Bool.true_and] at this
      rw [show 8 * (k + 1) + i - 8 = 8 * k + i by omega, this,
        BitVec.getLsbD_of_ge v _ (by omega)]
      simp [BitVec.getLsbD_eq_getElem, hi, show ¬ 8 * (k + 1) + i < 8 by omega]

/-- A little-endian value has no bit beyond its bytes. -/
theorem leValue_high (vs : List Byte) (j : Nat) (h : 8 * vs.length ≤ j) : (leValue vs).getLsbD j = false := by
  induction vs generalizing j with
  | nil => simp [leValue]
  | cons v vs ih =>
    simp only [List.length_cons] at h
    simp only [leValue, BitVec.getLsbD_or, BitVec.getLsbD_shiftLeft, BitVec.getLsbD_setWidth]
    rw [ih (j - 8) (by omega), BitVec.getLsbD_of_ge v j (by omega)]
    simp

/-- A little-endian value is as large as its bytes allow. -/
theorem leValue_lt (vs : List Byte) : (leValue vs).toNat < 2 ^ (8 * vs.length) :=
  Nat.lt_pow_two_of_testBit _ fun j hj => by
    simpa [BitVec.getLsbD] using leValue_high vs j hj

/-- A value is known by its bytes: two values below `2 ^ (8n)` with the same `n` bytes are the same. -/
theorem ext_bytes {v w : Vec} {n : Nat} (hv : v.toNat < 2 ^ (8 * n)) (hw : w.toNat < 2 ^ (8 * n))
    (h : ∀ k, k < n → v.extractLsb' (8 * k) 8 = w.extractLsb' (8 * k) 8) : v = w := by
  ext j hj
  by_cases hn : j < 8 * n
  · have := congrArg (fun x => x.getLsbD (j % 8)) (h (j / 8) (by omega))
    simp only [BitVec.getLsbD_extractLsb', Nat.mod_lt j (show 0 < 8 by omega), decide_true, Bool.true_and] at this
    rw [show 8 * (j / 8) + j % 8 = j by omega] at this
    simpa [BitVec.getLsbD_eq_getElem, hj] using this
  · have key : ∀ x : Vec, x.toNat < 2 ^ (8 * n) → x[j] = false := fun x hx => by
      rw [← BitVec.getLsbD_eq_getElem, BitVec.getLsbD]
      exact Nat.testBit_lt_two_pow (hx.trans_le (Nat.pow_le_pow_right (by omega) (by omega)))
    rw [key v hv, key w hw]

/-- Reading `n` bytes gives the value the memory holds there (20_memory.md R41). -/
theorem memHolds_readBytes {m : Memory} {a n : Nat} {v : Vec} (hn : n ≤ 64) (h : MemHolds m a n v) :
    ∃ vs, Memory.readBytes m a n = some vs ∧ leValue vs = v := by
  obtain ⟨hlt, hb⟩ := h
  refine ⟨List.ofFn fun k : Fin n => v.extractLsb' (8 * k) 8, readBytes_eq_some.2 ⟨by simp, fun k hk => ?_⟩, ?_⟩
  · simpa using hb k (by simpa using hk)
  · apply ext_bytes (n := n) _ hlt
    · intro k hk
      rw [leValue_byte _ _ (by simpa using hk) (by simpa using hn)]
      simp
    · simpa using leValue_lt (List.ofFn fun k : Fin n => v.extractLsb' (8 * k) 8)

/-- What reading `n` bytes gives is what the memory holds there (20_memory.md R41). -/
theorem readBytes_memHolds {m : Memory} {a n : Nat} {vs : List Byte} (hn : n ≤ 64)
    (h : Memory.readBytes m a n = some vs) : MemHolds m a n (leValue vs) := by
  obtain ⟨rfl, hb⟩ := readBytes_eq_some.1 h
  exact ⟨leValue_lt vs, fun k hk => by rw [leValue_byte _ _ hk hn]; exact hb k hk⟩

end Sys2Proof.Machine
end

