-- ==== Sys2Proof/Laws/State.lean ====
section
/-! SUPPORT. One lemma per field per update of the state, and what the register accessors read after an update. -/

namespace Sys2Proof.Machine

variable (s : State) (n m : VReg) (v : Vec) (q : Lane) (p : Addr)

@[simp] theorem writeZmm_cfg : (s.writeZmm n v).cfg = s.cfg := rfl
@[simp] theorem writeZmm_k : (s.writeZmm n v).k = s.k := rfl
@[simp] theorem writeZmm_gpr : (s.writeZmm n v).gpr = s.gpr := rfl
@[simp] theorem writeZmm_segBase : (s.writeZmm n v).segBase = s.segBase := rfl
@[simp] theorem writeZmm_pc : (s.writeZmm n v).pc = s.pc := rfl
@[simp] theorem writeZmm_rflags : (s.writeZmm n v).rflags = s.rflags := rfl
@[simp] theorem writeZmm_mxcsr : (s.writeZmm n v).mxcsr = s.mxcsr := rfl
@[simp] theorem writeZmm_mem : (s.writeZmm n v).mem = s.mem := rfl
@[simp] theorem writeZmm_text : (s.writeZmm n v).text = s.text := rfl
@[simp] theorem writeZmm_env : (s.writeZmm n v).env = s.env := rfl
@[simp] theorem writeZmm_zmm :
    (s.writeZmm n v).zmm = s.zmm.set n.toNat (low s.cfg.maxvl.bits v) n.isLt := rfl

@[simp] theorem writeXmm_cfg : (s.writeXmm n q).cfg = s.cfg := rfl
@[simp] theorem writeXmm_k : (s.writeXmm n q).k = s.k := rfl
@[simp] theorem writeXmm_gpr : (s.writeXmm n q).gpr = s.gpr := rfl
@[simp] theorem writeXmm_segBase : (s.writeXmm n q).segBase = s.segBase := rfl
@[simp] theorem writeXmm_pc : (s.writeXmm n q).pc = s.pc := rfl
@[simp] theorem writeXmm_rflags : (s.writeXmm n q).rflags = s.rflags := rfl
@[simp] theorem writeXmm_mxcsr : (s.writeXmm n q).mxcsr = s.mxcsr := rfl
@[simp] theorem writeXmm_mem : (s.writeXmm n q).mem = s.mem := rfl
@[simp] theorem writeXmm_text : (s.writeXmm n q).text = s.text := rfl
@[simp] theorem writeXmm_env : (s.writeXmm n q).env = s.env := rfl
@[simp] theorem writeXmm_zmm :
    (s.writeXmm n q).zmm = s.zmm.set n.toNat ((s.readZmm n).extractLsb' 128 384 ++ q) n.isLt := rfl

@[simp] theorem setPc_cfg : (s.setPc p).cfg = s.cfg := rfl
@[simp] theorem setPc_zmm : (s.setPc p).zmm = s.zmm := rfl
@[simp] theorem setPc_k : (s.setPc p).k = s.k := rfl
@[simp] theorem setPc_gpr : (s.setPc p).gpr = s.gpr := rfl
@[simp] theorem setPc_segBase : (s.setPc p).segBase = s.segBase := rfl
@[simp] theorem setPc_pc : (s.setPc p).pc = p := rfl
@[simp] theorem setPc_rflags : (s.setPc p).rflags = s.rflags := rfl
@[simp] theorem setPc_mxcsr : (s.setPc p).mxcsr = s.mxcsr := rfl
@[simp] theorem setPc_mem : (s.setPc p).mem = s.mem := rfl
@[simp] theorem setPc_text : (s.setPc p).text = s.text := rfl
@[simp] theorem setPc_env : (s.setPc p).env = s.env := rfl
@[simp] theorem setPc_readZmm : (s.setPc p).readZmm n = s.readZmm n := rfl

variable (i : Instr)

@[simp] theorem after_cfg : (s.after i n v).cfg = s.cfg := rfl
@[simp] theorem after_k : (s.after i n v).k = s.k := rfl
@[simp] theorem after_gpr : (s.after i n v).gpr = s.gpr := rfl
@[simp] theorem after_segBase : (s.after i n v).segBase = s.segBase := rfl
@[simp] theorem after_pc : (s.after i n v).pc = s.pc + BitVec.ofNat 64 i.len := rfl
@[simp] theorem after_rflags : (s.after i n v).rflags = s.rflags := rfl
@[simp] theorem after_mxcsr : (s.after i n v).mxcsr = s.mxcsr := rfl
@[simp] theorem after_mem : (s.after i n v).mem = s.mem := rfl
@[simp] theorem after_text : (s.after i n v).text = s.text := rfl
@[simp] theorem after_env : (s.after i n v).env = s.env := rfl
@[simp] theorem after_zmm : (s.after i n v).zmm = s.zmm.set n.toNat v n.isLt := rfl

/-- A register written and read: the destination holds what was written, every other register what it held. -/
theorem readZmm_after : (s.after i n v).readZmm m = if m = n then v else s.readZmm m := by
  simp only [State.readZmm, after_zmm, Vector.getElem_set, BitVec.toNat_inj, eq_comm (a := n)]

/-- The register itself, read back. -/
@[simp] theorem readZmm_after_self : (s.after i n v).readZmm n = v := by
  simp [readZmm_after]

end Sys2Proof.Machine
end

