-- ==== Sys2Proof/Laws/Exec.lean ====
section
/-! SUPPORT. What executing an instruction can do, said once: all eight meanings are one equation (`exec_eq`) over three
shared operations, and each of those has one lemma that says everything it can answer. -/

namespace Sys2Proof.Machine

/-! ## The shared operations -/

@[simp] theorem settle_ok (s : State) : settle (.ok s) = .next s := rfl
@[simp] theorem settle_fault (f : Fault) : settle (.error (.fault f)) = .fault f := rfl
@[simp] theorem settle_refused (r : Refusal) : settle (.error (.refused r)) = .refused r := rfl

/-- A settled result is a next state exactly when it is that state. -/
theorem settle_eq_next {x : Except Stop State} {t : State} : settle x = .next t ↔ x = .ok t := by
  rcases x with (f | r) | s <;> simp [settle]

/-- A settled result is a fault exactly when it is that fault. -/
theorem settle_eq_fault {x : Except Stop State} {f : Fault} : settle x = .fault f ↔ x = .error (.fault f) := by
  rcases x with (f | r) | s <;> simp [settle]

/-- A settled result is a refusal exactly when it is that refusal. -/
theorem settle_eq_refused {x : Except Stop State} {r : Refusal} : settle x = .refused r ↔ x = .error (.refused r) := by
  rcases x with (f | r) | s <;> simp [settle]

/-- What a record must be to be an instruction: every register it names is there, and its EVEX fields are no reserved
combination (10_state.md R23 to R25, 30_encoding.md R85, R87). -/
theorem reservedCombination_eq_false {c : Config} {i : Instr} :
    reservedCombination c i = false ↔
      i.record.dest.toNat < nvec c i.form.isEvex ∧ i.record.src1.toNat < nvec c i.form.isEvex ∧
      i.record.src2.regsBelow (nvec c i.form.isEvex) (ngpr c.mode64) = true ∧
      (∀ n, i.record.mask = some n → n.toNat < c.nmask) ∧ (c.mode64 = true ∨ hasRex i = false) ∧
      evexFieldsOk i.record.src2 i.record.mask i.record.z i.record.bcst = true := by
  have hm : i.record.mask.all (fun k => decide (k.toNat < c.nmask)) = true ↔
      ∀ n, i.record.mask = some n → n.toNat < c.nmask := by cases i.record.mask <;> simp
  rw [← hm]
  simp only [reservedCombination, Instr.form, Bool.not_eq_false', Bool.and_eq_true, decide_eq_true_eq, Bool.or_eq_true,
    Bool.not_eq_true', and_assoc]

/-- A form that is enabled fits its register, where MAXVL is at least what the features need (00_scope.md R5). -/
theorem kl_le_maxvl {i : Instr} {c : Config} (h : c.fitsForms = true) (he : enabled c.features i.form = true) :
    i.form.vl.kl ≤ c.maxvl.kl := by
  have key : ∀ (f : Features) (v : VL) (g : Form), f.impliedMaxvl.bits ≤ v.bits → enabled f g = true → g.vl.kl ≤ v.kl := by
    rintro ⟨sse, _ | _, _ | _, _ | _⟩ v g <;> cases v <;> cases g <;>
      simp [Features.impliedMaxvl, enabled, Form.vl, VL.bits, VL.kl]
  exact key _ _ _ (of_decide_eq_true h) he

/-- A fault that EnvFault names is one the instruction can raise (41_shufps_sse.md R110). -/
theorem envFault_possible {cls : ExcClass} {i : Instr} {s : State} {f : EnvFault} (h : envFault cls i s = some f) :
    f.possible i = true := by
  obtain ⟨e, he, rfl⟩ := Option.map_eq_some_iff.1 h
  have := List.find?_some he
  simp only [EnvEntry.answers, Bool.and_eq_true] at this
  exact this.1.2

/-- The checks see of a state only its configuration and the answer of EnvFault. -/
theorem preflight_congr {i : Instr} {s s' : State} (hc : s'.cfg = s.cfg) (he : SameEnvFault i s s') :
    preflight i s' = preflight i s := by
  unfold preflight
  rw [hc, he]

/-- The checks pass exactly under the premises of R181 that concern the form. -/
theorem preflight_eq_ok {i : Instr} {s : State} : preflight i s = .ok () ↔ FormEnabled i s ∧ NoEnvFault i s := by
  unfold preflight FormEnabled NoEnvFault raise
  cases reservedCombination s.cfg i <;> cases enabled s.cfg.features i.form <;>
    cases envFault i.form.excClass i s <;> simp

/-- The checks only fault, and with the first condition of R153 that holds. -/
theorem preflight_eq_error {i : Instr} {s : State} {e : Stop} :
    preflight i s = .error e ↔
      (¬ FormEnabled i s ∧ e = .fault .invalidOpcode) ∨
        (FormEnabled i s ∧ ∃ f, envFault i.form.excClass i s = some f ∧ e = .fault (.environment f)) := by
  unfold preflight FormEnabled raise
  cases reservedCombination s.cfg i <;> cases enabled s.cfg.features i.form <;>
    cases envFault i.form.excClass i s <;> simp [eq_comm]

/-- The memory operand of an instruction as its meaning reads it. -/
def operandRead (i : Instr) (s : State) (m : MemOperand) : Except Stop Vec :=
  memOperand s (i.form == .shufps) (Record.operandSize i.record) (Record.dispScale i.record) i.len i.record.pre m

/-- An operand is at most 64 bytes (20_memory.md R43). -/
theorem operandSize_le (r : Record) : Record.operandSize r ≤ 64 := by
  unfold Record.operandSize
  split_ifs
  · omega
  · cases r.form <;> decide

/-- Reading memory answers the value it holds there, inside the address space (20_memory.md R41, R42). -/
theorem memRead_eq_ok {s : State} {ea : Addr} {n : Nat} {v : Vec} (hn : n ≤ 64) :
    memRead s ea n = .ok v ↔ ea.toNat + n ≤ 2 ^ s.cfg.aw ∧ MemHolds s.mem ea.toNat n v := by
  unfold memRead raise refuse
  split_ifs with h
  · simp; omega
  · simp only [not_lt.1 h, true_and]
    cases hb : Memory.readBytes s.mem ea.toNat n with
    | none =>
      simp only [reduceCtorEq, false_iff]
      intro hv
      obtain ⟨vs, hvs, -⟩ := memHolds_readBytes hn hv
      simp [hb] at hvs
    | some vs =>
      simp only [Except.ok.injEq]
      constructor
      · rintro rfl; exact readBytes_memHolds hn hb
      · intro hv
        obtain ⟨vs', hvs, rfl⟩ := memHolds_readBytes hn hv
        rw [hb] at hvs
        rw [Option.some.inj hvs]

/-- Reading memory stops past the top (R42) or at a byte that is not mapped (R160). -/
theorem memRead_eq_error {s : State} {ea : Addr} {n : Nat} {e : Stop} :
    memRead s ea n = .error e ↔
      (2 ^ s.cfg.aw < ea.toNat + n ∧ e = .refused .accessPastTop) ∨
        (ea.toNat + n ≤ 2 ^ s.cfg.aw ∧ Unmapped s.mem ea.toNat n ∧ e = .fault (.memoryFault ea)) := by
  unfold memRead raise refuse
  rw [← readBytes_eq_none]
  split_ifs with h
  · simp [h, eq_comm]
  · have h' := not_lt.1 h
    cases Memory.readBytes s.mem ea.toNat n <;> simp [h, h', eq_comm]

/-- The memory operand, its checks in order (60_exceptions.md R153). -/
theorem operandRead_eq (i : Instr) (s : State) (m : MemOperand) :
    operandRead i s m =
      if s.cfg.mode64 = false ∧ addressSizeByte i.record.pre = true then .error (.refused .addressing16)
      else if i.form = .shufps ∧ (operandAddress i s m).toNat % 16 ≠ 0 then .error (.fault .generalProtection0)
      else memRead s (operandAddress i s m) (Record.operandSize i.record) := by
  unfold operandRead memOperand raise refuse operandAddress
  simp

/-- The address can be formed, or it is 16-bit addressing. -/
theorem addressFormed_iff {i : Instr} {s : State} :
    AddressFormed i s ↔ ¬ (s.cfg.mode64 = false ∧ addressSizeByte i.record.pre = true) := by
  unfold AddressFormed
  cases s.cfg.mode64 <;> simp

/-- A memory operand is read exactly where the memory holds it (20_memory.md R41, R42, R48). -/
theorem operandRead_eq_ok {i : Instr} {s : State} {m : MemOperand} {v : Vec} :
    operandRead i s m = .ok v ↔ OperandHolds i s m v := by
  rw [operandRead_eq, OperandHolds, addressFormed_iff, ← memRead_eq_ok (operandSize_le _)]
  split_ifs with h1 h2
  · simp [h1]
  · simp [h2.1, h2.2]
  · simp only [h1, not_false_eq_true, true_and]
    have : i.form = .shufps → (operandAddress i s m).toNat % 16 = 0 := fun hf => by
      by_contra hc
      exact h2 ⟨hf, hc⟩
    exact ⟨fun h => ⟨this, h⟩, And.right⟩

/-- Which fault a memory operand raises (60_exceptions.md R153 rows 4 and 5). -/
theorem operandRead_eq_fault {i : Instr} {s : State} {m : MemOperand} {f : Fault} :
    operandRead i s m = .error (.fault f) ↔
      AddressFormed i s ∧
      if i.form = .shufps ∧ (operandAddress i s m).toNat % 16 ≠ 0 then f = .generalProtection0
      else
        (operandAddress i s m).toNat + Record.operandSize i.record ≤ 2 ^ s.cfg.aw ∧
        Unmapped s.mem (operandAddress i s m).toNat (Record.operandSize i.record) ∧
        f = .memoryFault (operandAddress i s m) := by
  rw [operandRead_eq, addressFormed_iff]
  by_cases h1 : s.cfg.mode64 = false ∧ addressSizeByte i.record.pre = true
  · simp [h1]
  · rw [if_neg h1]
    by_cases h2 : i.form = .shufps ∧ (operandAddress i s m).toNat % 16 ≠ 0
    · rw [if_pos h2, if_pos h2, Except.error.injEq, Stop.fault.injEq, @eq_comm _ f]
      exact ⟨fun h => ⟨h1, h⟩, And.right⟩
    · rw [if_neg h2, if_neg h2, memRead_eq_error]
      simp only [h1, not_false_eq_true, true_and, reduceCtorEq, and_false, false_or, Stop.fault.injEq]

/-- Which refusal a memory operand meets (30_encoding.md R77, 20_memory.md R42). -/
theorem operandRead_eq_refused {i : Instr} {s : State} {m : MemOperand} {r : Refusal} :
    operandRead i s m = .error (.refused r) ↔
      (¬ AddressFormed i s ∧ r = .addressing16) ∨
      (AddressFormed i s ∧ ¬ (i.form = .shufps ∧ (operandAddress i s m).toNat % 16 ≠ 0) ∧
        2 ^ s.cfg.aw < (operandAddress i s m).toNat + Record.operandSize i.record ∧ r = .accessPastTop) := by
  rw [operandRead_eq, addressFormed_iff]
  by_cases h1 : s.cfg.mode64 = false ∧ addressSizeByte i.record.pre = true
  · simp [h1, eq_comm]
  · rw [if_neg h1]
    by_cases h2 : i.form = .shufps ∧ (operandAddress i s m).toNat % 16 ≠ 0
    · rw [if_pos h2]; simp [h1, h2]
    · rw [if_neg h2, memRead_eq_error]
      simp only [h1, h2, not_false_eq_true, not_true_eq_false, true_and, false_and, false_or, reduceCtorEq, and_false,
        or_false, Stop.refused.injEq]

/-- The second source of an instruction as its meaning computes it. -/
def source (i : Instr) (s : State) : Except Stop Vec :=
  if i.form.isEvex then evexSecondSource s i.form.vl i.record.bcst i.len i.record.pre i.record.src2
  else secondSource s i.form.vl (i.form == .shufps) i.len i.record.pre i.record.src2

/-- A broadcast flag stands in EVEX forms only (42_vshufps_vex.md R120). -/
theorem bcst_evex (i : Instr) (h : i.form.isEvex = false) : i.record.bcst = false := by
  cases i <;> simp_all [Instr.form, Instr.record, Form.isEvex]

/-- The second source in one equation: a register's low bits, or the memory operand, broadcast or not. -/
theorem source_eq (i : Instr) (s : State) :
    source i s =
      match i.record.src2 with
      | .reg r => .ok (low i.form.vl.bits (s.readZmm r))
      | .mem m => (operandRead i s m).map fun v => if i.record.bcst then broadcast i.form.vl (elem v 0) else v := by
  unfold source
  have key : ∀ x : Except Stop Vec, x.map (fun v => v) = x := fun x => by cases x <;> rfl
  cases he : i.form.isEvex
  · have hb := bcst_evex i he
    cases i.record.src2 with
    | reg r => simp [secondSource]
    | mem m =>
      have he' : i.record.form.isEvex = false := he
      simp only [secondSource, hb, Bool.false_eq_true, ite_false, operandRead, Record.operandSize, Record.dispScale, he', key]
      rfl
  · cases i.record.src2 with
    | reg r => simp [evexSecondSource]
    | mem m =>
      have he' : i.record.form.isEvex = true := he
      have hs : (i.form == Form.shufps) = false := by
        cases hf : i.form <;> simp_all [Form.isEvex]
      simp only [ite_true, evexSecondSource, operandRead, Record.dispScale, he', hs]
      cases hb : i.record.bcst <;>
        simp only [Record.operandSize, hb, evexOperandSize, Bool.false_eq_true, ite_false, ite_true] <;>
        rfl

/-- The second source stops only in its memory operand. -/
theorem source_eq_error {i : Instr} {s : State} {e : Stop} :
    source i s = .error e ↔ ∃ m, i.record.src2 = .mem m ∧ operandRead i s m = .error e := by
  rw [source_eq]
  cases i.record.src2 with
  | reg r => simp
  | mem m => cases h : operandRead i s m <;> simp [Except.map, h]

/-- The second source has the elements R131 gives it, and a value below VL bits wherever those are given. -/
theorem source_of_secondSourceIs {i : Instr} {s : State} {f : Nat → Elem} (h : SecondSourceIs i s f) :
    ∃ b, source i s = .ok b ∧ ∀ j, j < i.form.vl.kl → elem b j = f j := by
  unfold SecondSourceIs at h
  rw [source_eq]
  cases hs : i.record.src2 with
  | reg r =>
    rw [hs] at h
    exact ⟨_, rfl, fun j hj => by rw [elem_low, if_pos hj, h j hj]⟩
  | mem m =>
    rw [hs] at h
    obtain ⟨v, hv, hf⟩ := h
    refine ⟨if i.record.bcst then broadcast i.form.vl (elem v 0) else v, by
      simp only [operandRead_eq_ok.2 hv, Except.map], fun j hj => ?_⟩
    have hk := (vl_bits_eq i.form.vl).2.2.2
    rw [hf j hj]
    cases i.record.bcst
    · rfl
    · simp only [ite_true]
      rw [elem_broadcast _ _ _ (by omega), if_pos hj]

/-- The value a completed instruction leaves in its destination register, from the value of its second source. -/
def newDest (i : Instr) (s : State) (b : Vec) : Vec :=
  let r := i.record
  if i.form = .shufps then
    (s.readZmm r.dest).extractLsb' 128 384 ++ shuf128 (lane (s.readZmm r.dest) 0) (lane b 0) r.imm8
  else if i.form.isEvex then
    low s.cfg.maxvl.bits (blend i.form.vl (writemask s r.mask) r.z (shufVL i.form.vl (s.readZmm r.src1) b r.imm8)
      (s.readZmm r.dest))
  else low s.cfg.maxvl.bits (shufVL i.form.vl (s.readZmm r.src1) b r.imm8)

/-- Every meaning in one equation: the checks, the second source, the write of one register and the advance of `pc`. -/
theorem exec_eq (i : Instr) (s : State) :
    exec i s = settle (do
      preflight i s
      let b ← source i s
      if s.pc.toNat + i.len < 2 ^ s.cfg.aw then .ok (s.after i i.record.dest (newDest i s b)) else .error (.refused .textPastTop)) := by
  cases i <;> rfl

/-- An instruction completes exactly where the premises hold and its second source has a value; one register and `pc`
are written, nothing else. -/
theorem exec_eq_next {i : Instr} {s t : State} :
    exec i s = .next t ↔
      Ready i s ∧ ∃ b, source i s = .ok b ∧ t = s.after i i.record.dest (newDest i s b) := by
  rw [exec_eq, settle_eq_next, Ready, ← and_assoc, ← preflight_eq_ok, TextBelowTop]
  rcases preflight i s with e | u
  · simp [bind, Except.bind]
  · rcases source i s with e | b
    · simp [bind, Except.bind]
    · by_cases h : s.pc.toNat + i.len < 2 ^ s.cfg.aw <;> simp [bind, Except.bind, h, eq_comm]

/-- An instruction faults exactly where its checks do, or where its second source does. -/
theorem exec_eq_fault {i : Instr} {s : State} {f : Fault} :
    exec i s = .fault f ↔
      preflight i s = .error (.fault f) ∨ (preflight i s = .ok () ∧ source i s = .error (.fault f)) := by
  rw [exec_eq, settle_eq_fault]
  rcases preflight i s with e | u
  · simp [bind, Except.bind]
  · rcases source i s with e | b
    · simp [bind, Except.bind]
    · by_cases h : s.pc.toNat + i.len < 2 ^ s.cfg.aw <;> simp [bind, Except.bind, h]

/-- An instruction is refused exactly where its second source is, or where `pc + len` reaches the top (R28). -/
theorem exec_eq_refused {i : Instr} {s : State} {r : Refusal} :
    exec i s = .refused r ↔
      preflight i s = .ok () ∧ (source i s = .error (.refused r) ∨
        (∃ b, source i s = .ok b) ∧ ¬ TextBelowTop i s ∧ r = .textPastTop) := by
  rw [exec_eq, settle_eq_refused, TextBelowTop]
  cases hp : preflight i s with
  | error e =>
    have : ∀ r, e ≠ .refused r := fun r hr => by
      subst hr
      rcases preflight_eq_error.1 hp with ⟨-, h⟩ | ⟨-, f, -, h⟩ <;> cases h
    simp [bind, Except.bind, this]
  | ok u =>
    rcases source i s with e | b
    · simp [bind, Except.bind]
    · by_cases h : s.pc.toNat + i.len < 2 ^ s.cfg.aw <;> simp [bind, Except.bind, h, eq_comm]

/-- A step completes exactly where an instruction is fetched and it completes. -/
theorem step_eq_next {s t : State} : step s = .next t ↔ ∃ i, fetch s = .ok i ∧ exec i s = .next t := by
  unfold step
  rcases fetch s with (f | r) | i <;> simp

end Sys2Proof.Machine
end

