-- ==== Sys2Proof/Laws/PerInstr.lean ====
section
/-! SUPPORT. The family EncodeLength, one lemma per constructor: an instruction's encoding is as long as R83 says. -/

namespace Sys2Proof.Laws.EncodeLength

/-- The encoding has the length of the record (30_encoding.md R83, R86). -/
def Statement (i : Instr) : Prop := (encode i).length = i.len

/-- The ModRM, SIB and displacement bytes account for `1 + S + D` of R83. -/
theorem length_rm (reg : BitVec 3) (src : RM) : (src.bytes reg).length = src.len := by
  have hd : ∀ d : Disp, d.bytes.length = d.len := fun d => by cases d <;> rfl
  match src with
  | .reg r => rfl
  | .mem (.base b d) => simp [RM.bytes, RM.len, MemOperand.len, hd]; omega
  | .mem (.ripRel d) => rfl
  | .mem (.sib b i d) => simp [RM.bytes, RM.len, MemOperand.len, hd]; omega
  | .mem (.sibNoBase i d) => rfl

/-- The opcode byte, the ModRM part and imm8. -/
theorem length_tail (d : VReg) (src : RM) (imm8 : BitVec 8) : (tailBytes d src imm8).length = 1 + src.len + 1 := by
  simp [tailBytes, length_rm]; omega

theorem length_prefixes (pre : List LegacyPrefix) : (prefixBytes pre).length = pre.length := by simp [prefixBytes]

theorem shufps (pre : List LegacyPrefix) (rex : Bool) (d : VReg) (src : RM) (imm8 : BitVec 8) :
    Statement (.shufps pre rex d src imm8) := by
  cases rex <;> simp [Statement, encode, Instr.len, length_tail, length_prefixes] <;> omega

theorem vshufpsVex128C5 (pre : List LegacyPrefix) (d s1 : VReg) (src : RM) (imm8 : BitVec 8) :
    Statement (.vshufpsVex128C5 pre d s1 src imm8) := by
  simp [Statement, encode, Instr.len, length_tail, length_prefixes, vexC5Bytes]; omega

theorem vshufpsVex128C4 (pre : List LegacyPrefix) (d s1 : VReg) (src : RM) (imm8 : BitVec 8) :
    Statement (.vshufpsVex128C4 pre d s1 src imm8) := by
  simp [Statement, encode, Instr.len, length_tail, length_prefixes, vexC4Bytes]; omega

theorem vshufpsVex256C5 (pre : List LegacyPrefix) (d s1 : VReg) (src : RM) (imm8 : BitVec 8) :
    Statement (.vshufpsVex256C5 pre d s1 src imm8) := by
  simp [Statement, encode, Instr.len, length_tail, length_prefixes, vexC5Bytes]; omega

theorem vshufpsVex256C4 (pre : List LegacyPrefix) (d s1 : VReg) (src : RM) (imm8 : BitVec 8) :
    Statement (.vshufpsVex256C4 pre d s1 src imm8) := by
  simp [Statement, encode, Instr.len, length_tail, length_prefixes, vexC4Bytes]; omega

theorem vshufpsEvex128 (pre : List LegacyPrefix) (d s1 : VReg) (src : RM) (imm8 : BitVec 8) (mask : Option KReg)
    (z b : Bool) : Statement (.vshufpsEvex128 pre d s1 src imm8 mask z b) := by
  simp [Statement, encode, Instr.len, length_tail, length_prefixes, evexBytes]; omega

theorem vshufpsEvex256 (pre : List LegacyPrefix) (d s1 : VReg) (src : RM) (imm8 : BitVec 8) (mask : Option KReg)
    (z b : Bool) : Statement (.vshufpsEvex256 pre d s1 src imm8 mask z b) := by
  simp [Statement, encode, Instr.len, length_tail, length_prefixes, evexBytes]; omega

theorem vshufpsEvex512 (pre : List LegacyPrefix) (d s1 : VReg) (src : RM) (imm8 : BitVec 8) (mask : Option KReg)
    (z b : Bool) : Statement (.vshufpsEvex512 pre d s1 src imm8 mask z b) := by
  simp [Statement, encode, Instr.len, length_tail, length_prefixes, evexBytes]; omega

end Sys2Proof.Laws.EncodeLength
end

