-- ==== Sys2Proof/Tests/Slice0.lean ====
section
/-! SUPPORT. Tests: ill-formed records, decoded words, one step each from 95_test_vectors.md, and a witness for the hypotheses
of every obligation. Expected values are the spec's vectors (named L1, V1, E1, F1, T1 … as there), written out by hand. -/

open Sys2Proof Sys2Proof.Machine

namespace Sys2Proof.Tests

/-! ## WellFormed refuses each ill-formed term -/

theorem test_wf_register_number :
    (Instr.shufps [] false 0 (.reg 1) 0).wellFormed = true ∧ (Instr.shufps [] false 8 (.reg 1) 0).wellFormed = false ∧
    (Instr.shufps [] true 15 (.reg 1) 0).wellFormed = true ∧ (Instr.shufps [] true 16 (.reg 1) 0).wellFormed = false ∧
    (Instr.vshufpsVex128C5 [] 15 15 (.reg 7) 0).wellFormed = true ∧
    (Instr.vshufpsVex128C5 [] 0 16 (.reg 1) 0).wellFormed = false ∧
    (Instr.vshufpsVex256C5 [] 0 1 (.reg 8) 0).wellFormed = false ∧
    (Instr.vshufpsVex128C4 [] 0 1 (.reg 16) 0).wellFormed = false ∧
    (Instr.vshufpsVex256C4 [] 16 1 (.reg 1) 0).wellFormed = false := by decide

theorem test_wf_addressing :
    (Instr.shufps [] false 0 (.mem (.base 0 .absent)) 0).wellFormed = true ∧
    (Instr.shufps [] false 0 (.mem (.base 4 .absent)) 0).wellFormed = false ∧
    (Instr.shufps [] false 0 (.mem (.base 5 .absent)) 0).wellFormed = false ∧
    (Instr.shufps [] false 0 (.mem (.base 5 (.d8 0))) 0).wellFormed = true ∧
    (Instr.shufps [] false 0 (.mem (.sib 5 none .absent)) 0).wellFormed = false ∧
    (Instr.shufps [] false 0 (.mem (.sib 0 (some ⟨4, 0⟩) .absent)) 0).wellFormed = false ∧
    (Instr.shufps [] false 0 (.mem (.sibNoBase (some ⟨4, 1⟩) 0)) 0).wellFormed = false ∧
    (Instr.shufps [] false 0 (.mem (.base 8 .absent)) 0).wellFormed = false ∧
    (Instr.shufps [] true 0 (.mem (.sib 8 (some ⟨12, 3⟩) .absent)) 0).wellFormed = true := by decide

theorem test_wf_evex_fields :
    (Instr.vshufpsEvex128 [] 31 31 (.reg 31) 0 (some 7) true false).wellFormed = true ∧
    (Instr.vshufpsEvex128 [] 0 1 (.reg 2) 0 (some 0) false false).wellFormed = false ∧
    (Instr.vshufpsEvex256 [] 0 1 (.reg 2) 0 none true false).wellFormed = false ∧
    (Instr.vshufpsEvex512 [] 0 1 (.reg 2) 0 none false true).wellFormed = false := by decide

theorem test_wf_length :
    (Instr.vshufpsEvex512 (List.replicate 4 .addrSize) 0 1 (.mem (.ripRel 0)) 0 none false false).wellFormed = true ∧
    (Instr.vshufpsEvex512 (List.replicate 5 .addrSize) 0 1 (.mem (.ripRel 0)) 0 none false false).wellFormed = false := by
  decide

/-! ## Decoding words written out from the spec (95_test_vectors.md sections 2 and 4) -/

theorem test_decode_legacy :
    decode [0x0F, 0xC6, 0xC1, 0x1B] = .ok (.shufps [] false 0 (.reg 1) 0x1B) ∧
    decode [0x45, 0x0F, 0xC6, 0xCA, 0x1B] = .ok (.shufps [] true 9 (.reg 10) 0x1B) ∧
    decode [0x0F, 0xC6, 0x53, 0x10, 0xE4] = .ok (.shufps [] false 2 (.mem (.base 3 (.d8 0x10))) 0xE4) ∧
    decode [0x64, 0x67, 0x0F, 0xC6, 0x08, 0x1B] =
      .ok (.shufps [.seg .fs, .addrSize] false 1 (.mem (.base 0 .absent)) 0x1B) := by decide

theorem test_decode_vex128 :
    decode [0xC5, 0xF0, 0xC6, 0xC2, 0x1B] = .ok (.vshufpsVex128C5 [] 0 1 (.reg 2) 0x1B) ∧
    decode [0xC5, 0xF0, 0xC6, 0x05, 0x00, 0x01, 0x00, 0x00, 0x1B] =
      .ok (.vshufpsVex128C5 [] 0 1 (.mem (.ripRel 0x100)) 0x1B) ∧
    decode [0xC4, 0xE1, 0x70, 0xC6, 0xC2, 0x1B] = .ok (.vshufpsVex128C4 [] 0 1 (.reg 2) 0x1B) ∧
    decode [0xC4, 0xE1, 0xF0, 0xC6, 0xC2, 0x1B] = .ok (.vshufpsVex128C4 [] 0 1 (.reg 2) 0x1B) := by decide

theorem test_decode_vex256 :
    decode [0xC5, 0xF4, 0xC6, 0xC2, 0x1B] = .ok (.vshufpsVex256C5 [] 0 1 (.reg 2) 0x1B) ∧
    decode [0xC5, 0xDC, 0xC6, 0x5C, 0x8B, 0x08, 0x72] =
      .ok (.vshufpsVex256C5 [] 3 4 (.mem (.sib 3 (some ⟨1, 2⟩) (.d8 8))) 0x72) ∧
    decode [0xC4, 0x41, 0x74, 0xC6, 0xC2, 0x1B] = .ok (.vshufpsVex256C4 [] 8 1 (.reg 10) 0x1B) := by decide

theorem test_decode_evex128 :
    decode [0x62, 0xF1, 0x74, 0x09, 0xC6, 0xC2, 0x1B] =
      .ok (.vshufpsEvex128 [] 0 1 (.reg 2) 0x1B (some 1) false false) ∧
    decode [0x62, 0xF1, 0x74, 0x89, 0xC6, 0xC2, 0x1B] =
      .ok (.vshufpsEvex128 [] 0 1 (.reg 2) 0x1B (some 1) true false) ∧
    decode [0x62, 0xF1, 0x6C, 0x19, 0xC6, 0x48, 0x02, 0x27] =
      .ok (.vshufpsEvex128 [] 1 2 (.mem (.base 0 (.d8 2))) 0x27 (some 1) false true) := by decide

theorem test_decode_evex256 :
    decode [0x62, 0xF1, 0x74, 0xAA, 0xC6, 0x40, 0x02, 0x1B] =
      .ok (.vshufpsEvex256 [] 0 1 (.mem (.base 0 (.d8 2))) 0x1B (some 2) true false) ∧
    decode [0x62, 0xF1, 0x6C, 0x38, 0xC6, 0x08, 0x00] =
      .ok (.vshufpsEvex256 [] 1 2 (.mem (.base 0 .absent)) 0x00 none false true) := by decide

theorem test_decode_evex512 :
    decode [0x62, 0xF1, 0x74, 0x58, 0xC6, 0x40, 0x10, 0x1B] =
      .ok (.vshufpsEvex512 [] 0 1 (.mem (.base 0 (.d8 0x10))) 0x1B none false true) ∧
    decode [0x62, 0x01, 0x0C, 0xC7, 0xC6, 0xFD, 0xFF] =
      .ok (.vshufpsEvex512 [] 31 30 (.reg 29) 0xFF (some 7) true false) ∧
    decode [0x62, 0xA1, 0x6C, 0x40, 0xC6, 0xCB, 0x1B] =
      .ok (.vshufpsEvex512 [] 17 18 (.reg 19) 0x1B none false false) := by decide

/-- The rejected words of 95_test_vectors.md section 4, and those R87 and R83 add. -/
theorem test_decode_rejected :
    decode [0x62, 0xF1, 0xF4, 0x48, 0xC6, 0xC2, 0x1B] = .error (.reserved .evexW) ∧
    decode [0x62, 0xF1, 0x74, 0x58, 0xC6, 0xC2, 0x1B] = .error (.reserved .evexBroadcastRegister) ∧
    decode [0x62, 0xF1, 0x74, 0xC8, 0xC6, 0xC2, 0x1B] = .error (.reserved .evexZeroingNoMask) ∧
    decode [0x62, 0xF1, 0x74, 0x68, 0xC6, 0xC2, 0x1B] = .error (.reserved .evexLength) ∧
    decode [0x62, 0xF5, 0x74, 0x48, 0xC6, 0xC2, 0x1B] = .error (.reserved .evexFixedBits) ∧
    decode [0x62, 0xF1, 0x75, 0x48, 0xC6, 0xC2, 0x1B] = .error .otherInstruction ∧
    decode [0x66, 0x0F, 0xC6, 0xC1, 0x1B] = .error .otherInstruction ∧
    decode [0xC5, 0xF1, 0xC6, 0xC2, 0x1B] = .error .otherInstruction ∧
    decode [0xF3, 0x0F, 0xC6, 0xC1, 0x1B] = .error (.reserved .byteBeforeLegacy) ∧
    decode [0xF0, 0x0F, 0xC6, 0x00, 0x1B] = .error (.reserved .byteBeforeLegacy) ∧
    decode [0x66, 0xC5, 0xF0, 0xC6, 0xC2, 0x1B] = .error (.reserved .byteBeforeVex) ∧
    decode [0x48, 0xC5, 0xF0, 0xC6, 0xC2, 0x1B] = .error (.reserved .byteBeforeVex) ∧
    decode [0x0F, 0xC6, 0xC1] = .error .truncated ∧
    decode (List.replicate 12 0x67 ++ [0x0F, 0xC6, 0xC1, 0x1B]) = .error .tooLong := by decide

/-- The encoder writes the words of 95_test_vectors.md section 2 (T1, T7, T9, T22, T23, T30, T39). -/
theorem test_encode_words :
    encode (.shufps [] false 0 (.reg 1) 0x1B) = [0x0F, 0xC6, 0xC1, 0x1B] ∧
    encode (.shufps [] true 9 (.reg 10) 0x1B) = [0x45, 0x0F, 0xC6, 0xCA, 0x1B] ∧
    encode (.vshufpsVex128C4 [] 0 1 (.reg 2) 0x1B) = [0xC4, 0xE1, 0x70, 0xC6, 0xC2, 0x1B] ∧
    encode (.vshufpsVex256C4 [] 8 1 (.reg 10) 0x1B) = [0xC4, 0x41, 0x74, 0xC6, 0xC2, 0x1B] ∧
    encode (.vshufpsVex256C5 [] 3 4 (.mem (.sib 3 (some ⟨1, 2⟩) (.d8 8))) 0x72) =
      [0xC5, 0xDC, 0xC6, 0x5C, 0x8B, 0x08, 0x72] ∧
    encode (.vshufpsEvex256 [] 0 1 (.mem (.base 0 (.d8 2))) 0x1B (some 2) true false) =
      [0x62, 0xF1, 0x74, 0xAA, 0xC6, 0x40, 0x02, 0x1B] ∧
    encode (.vshufpsEvex512 [] 31 30 (.reg 29) 0xFF (some 7) true false) =
      [0x62, 0x01, 0x0C, 0xC7, 0xC6, 0xFD, 0xFF] := by decide

/-- The table's words: the matches of the eight rows, first byte most significant (R81). -/
theorem test_table_words :
    (decodeTableWord 16 0x0FC6).map Instr.row = some 1 ∧ (decodeTableWord 24 0xC500C6).map Instr.row = some 2 ∧
    (decodeTableWord 32 0xC40100C6).map Instr.row = some 3 ∧ (decodeTableWord 24 0xC504C6).map Instr.row = some 4 ∧
    (decodeTableWord 32 0xC40104C6).map Instr.row = some 5 ∧ (decodeTableWord 40 0x62010400C6).map Instr.row = some 6 ∧
    (decodeTableWord 40 0x62010420C6).map Instr.row = some 7 ∧
    (decodeTableWord 40 0x62010440C6).map Instr.row = some 8 := by decide

/-! ## A small state, and one step on it -/

/-- Elements `h000000e`, as 95_test_vectors.md writes `A<n>`, `B<n>` and `D<n>`. -/
def pat (h : Elem) : Vec := ofElems fun j => (h <<< 28) ||| BitVec.ofNat 32 j

/-- The vectors' start: ZMM0 holds D, ZMM1 holds A, ZMM2 holds B, and `pc` is 1000H. -/
def start : State :=
  { State.reset with
    pc := 0x1000
    zmm := ((State.reset.zmm.set 0 (pat 0xD)).set 1 (pat 0xA)).set 2 (pat 0xB) }

/-- A state with these bytes of text at `pc`. -/
def running (s : State) (vs : List Byte) : State :=
  { s with text := Memory.writeBytes [] s.pc.toNat vs }

/-- RAX. -/
def rax (s : State) (v : Addr) : State := { s with gpr := s.gpr.set 0 v }

/-- K1, K2 and K3 all hold `v`. -/
def mask (s : State) (v : BitVec 64) : State := { s with k := ((s.k.set 1 v).set 2 v).set 3 v }

/-- Bytes in data memory at an address. -/
def holding (s : State) (a : Nat) (vs : List Byte) : State := { s with mem := Memory.writeBytes s.mem a vs }

/-- After a completed step: elements 15 to 0 of a register, as the vectors write them, and `pc`. -/
def result (n : VReg) : Host.Outcome State Fault Refusal → Option (List Elem × Addr)
  | .next t => some ((List.range 16).reverse.map (elem (t.readZmm n)), t.pc)
  | .fault _ => none
  | .refused _ => none

/-- The fault of a step. -/
def faultOf : Host.Outcome State Fault Refusal → Option Fault
  | .next _ => none
  | .fault f => some f
  | .refused _ => none

/-- The refusal of a step. -/
def refusalOf : Host.Outcome State Fault Refusal → Option Refusal
  | .next _ => none
  | .fault _ => none
  | .refused r => some r

/-- The bytes 0 to 15 of L3, the bytes 10H to 2FH of V4, and the word 12345678H of E9. -/
def bytes16 : List Byte := (List.range 16).map (BitVec.ofNat 8)

def bytes32 : List Byte := (List.range 32).map fun j => BitVec.ofNat 8 (0x10 + j)

def word : List Byte := [0x78, 0x56, 0x34, 0x12]

/-- Other feature flags. -/
def features (s : State) (f : Features) : State := { s with cfg := { s.cfg with features := f } }

/-! ## One step each -/

/-- L1 and L2 on the start state (D for A, A for B): bits from 128 up stay, both sources are read before the write. -/
theorem test_shufps_register :
    result 0 (step (running start
      [0x0F, 0xC6, 0xC1, 0x1B])) =
      some ([0xD000000F, 0xD000000E, 0xD000000D, 0xD000000C, 0xD000000B, 0xD000000A, 0xD0000009, 0xD0000008,
        0xD0000007, 0xD0000006, 0xD0000005, 0xD0000004, 0xA0000000, 0xA0000001, 0xD0000002, 0xD0000003], 0x1004) ∧
    result 0 (step (running start
      [0x0F, 0xC6, 0xC0, 0x1B])) =
      some ([0xD000000F, 0xD000000E, 0xD000000D, 0xD000000C, 0xD000000B, 0xD000000A, 0xD0000009, 0xD0000008,
        0xD0000007, 0xD0000006, 0xD0000005, 0xD0000004, 0xD0000000, 0xD0000001, 0xD0000002, 0xD0000003], 0x1004) := by
  decide +kernel

/-- L3, L4, L5 and F4: a little-endian aligned load; alignment is tested before the bytes are looked at. -/
theorem test_shufps_memory :
    result 1 (step (running (rax (holding start 0x1000 bytes16) 0x1000)
      [0x0F, 0xC6, 0x08, 0x1B])) =
      some ([0xA000000F, 0xA000000E, 0xA000000D, 0xA000000C, 0xA000000B, 0xA000000A, 0xA0000009, 0xA0000008,
        0xA0000007, 0xA0000006, 0xA0000005, 0xA0000004, 0x03020100, 0x07060504, 0xA0000002, 0xA0000003], 0x1004) ∧
    faultOf (step (running (rax (holding start 0x1000 bytes16) 0x1004)
      [0x0F, 0xC6, 0x08, 0x1B])) = some (.generalProtection0) ∧
    faultOf (step (running (rax (holding start 0x1000 bytes16) 0x1010)
      [0x0F, 0xC6, 0x08, 0x1B])) = some (.memoryFault 0x1010) ∧
    faultOf (step (running (rax start 0x1004)
      [0x0F, 0xC6, 0x08, 0x1B])) = some (.generalProtection0) := by
  decide +kernel

/-- V1 and V6 (on ZMM0): bits from 128 up are zeroed, even by the immediate that changes nothing else. -/
theorem test_vexC5_128 :
    result 0 (step (running start
      [0xC5, 0xF0, 0xC6, 0xC2, 0x1B])) =
      some ([0, 0, 0, 0, 0, 0, 0, 0, 0, 0, 0, 0, 0xB0000000, 0xB0000001, 0xA0000002, 0xA0000003], 0x1005) ∧
    result 0 (step (running start
      [0xC5, 0xF8, 0xC6, 0xC0, 0xE4])) =
      some ([0, 0, 0, 0, 0, 0, 0, 0, 0, 0, 0, 0, 0xD0000003, 0xD0000002, 0xD0000001, 0xD0000000], 0x1005) := by
  decide +kernel

/-- V1 with the three-byte prefix, W = 1 (T9). -/
theorem test_vexC4_128 :
    result 0 (step (running start
      [0xC4, 0xE1, 0xF0, 0xC6, 0xC2, 0x1B])) =
      some ([0, 0, 0, 0, 0, 0, 0, 0, 0, 0, 0, 0, 0xB0000000, 0xB0000001, 0xA0000002, 0xA0000003], 0x1006) := by
  decide +kernel

/-- V3, and V4 with its unaligned memory operand in `[rax]`. -/
theorem test_vexC5_256 :
    result 0 (step (running start
      [0xC5, 0xF4, 0xC6, 0xC2, 0x72])) =
      some ([0, 0, 0, 0, 0, 0, 0, 0, 0xB0000005, 0xB0000007, 0xA0000004, 0xA0000006, 0xB0000001, 0xB0000003,
        0xA0000000, 0xA0000002], 0x1005) ∧
    result 0 (step (running (rax (holding start 0x2001 bytes32) 0x2001)
      [0xC5, 0xF4, 0xC6, 0x00, 0xE4])) =
      some ([0, 0, 0, 0, 0, 0, 0, 0, 0x2F2E2D2C, 0x2B2A2928, 0xA0000005, 0xA0000004, 0x1F1E1D1C, 0x1B1A1918,
        0xA0000001, 0xA0000000], 0x1005) := by
  decide +kernel

/-- V2 with the three-byte prefix and destination 8; V9: the last byte of the operand is not mapped. -/
theorem test_vexC4_256 :
    result 8 (step (running start
      [0xC4, 0x61, 0x74, 0xC6, 0xC2, 0x1B])) =
      some ([0, 0, 0, 0, 0, 0, 0, 0, 0xB0000004, 0xB0000005, 0xA0000006, 0xA0000007, 0xB0000000, 0xB0000001,
        0xA0000002, 0xA0000003], 0x1006) ∧
    faultOf (step (running (rax (holding start 0x2001 (bytes32.take 31)) 0x2001)
      [0xC4, 0xE1, 0x74, 0xC6, 0x00, 0x00])) = some (.memoryFault 0x2001) := by
  decide +kernel

/-- E1, E2 and E3: merging, zeroing, and mask bits from KL up. -/
theorem test_evex128_masks :
    result 0 (step (running (mask start 5)
      [0x62, 0xF1, 0x74, 0x09, 0xC6, 0xC2, 0x1B])) =
      some ([0, 0, 0, 0, 0, 0, 0, 0, 0, 0, 0, 0, 0xD0000003, 0xB0000001, 0xD0000001, 0xA0000003], 0x1007) ∧
    result 0 (step (running (mask start 5)
      [0x62, 0xF1, 0x74, 0x89, 0xC6, 0xC2, 0x1B])) =
      some ([0, 0, 0, 0, 0, 0, 0, 0, 0, 0, 0, 0, 0, 0xB0000001, 0, 0xA0000003], 0x1007) ∧
    result 0 (step (running (mask start 0xFFF0)
      [0x62, 0xF1, 0x74, 0x09, 0xC6, 0xC2, 0x1B])) =
      some ([0, 0, 0, 0, 0, 0, 0, 0, 0, 0, 0, 0, 0xD0000003, 0xD0000002, 0xD0000001, 0xD0000000], 0x1007) := by
  decide +kernel

/-- E10, with the operand at `[rax]`. -/
theorem test_evex128_broadcast :
    result 0 (step (running (rax (holding (mask start 6) 0x3000 word) 0x3000)
      [0x62, 0xF1, 0x74, 0x19, 0xC6, 0x00, 0x27])) =
      some ([0, 0, 0, 0, 0, 0, 0, 0, 0, 0, 0, 0, 0xD0000003, 0x12345678, 0xA0000001, 0xD0000000], 0x1007) := by
  decide +kernel

/-- E4: an empty mask still clears the bits from 256 up. -/
theorem test_evex256_mask_zero :
    result 0 (step (running start
      [0x62, 0xF1, 0x74, 0x29, 0xC6, 0xC2, 0x1B])) =
      some ([0, 0, 0, 0, 0, 0, 0, 0, 0xD0000007, 0xD0000006, 0xD0000005, 0xD0000004, 0xD0000003, 0xD0000002,
        0xD0000001, 0xD0000000], 0x1007) := by
  decide +kernel

/-- E12: disp8 scaled by 32, zeroing-masking. -/
theorem test_evex256_memory :
    result 0 (step (running (rax (holding (mask start 0xF0) 0x4000 (List.range 32 |>.map (BitVec.ofNat 8))) 0x3FC0)
      [0x62, 0xF1, 0x74, 0xAA, 0xC6, 0x40, 0x02, 0x1B])) =
      some ([0, 0, 0, 0, 0, 0, 0, 0, 0x13121110, 0x17161514, 0xA0000006, 0xA0000007, 0, 0, 0, 0], 0x1008) := by
  decide +kernel

/-- E7 and E8. -/
theorem test_evex512_masks :
    result 0 (step (running (mask start 0xA5C3)
      [0x62, 0xF1, 0x74, 0x4A, 0xC6, 0xC2, 0xD8])) =
      some ([0xB000000F, 0xD000000E, 0xA000000E, 0xD000000C, 0xD000000B, 0xB0000009, 0xD0000009, 0xA0000008,
        0xB0000007, 0xB0000005, 0xD0000005, 0xD0000004, 0xD0000003, 0xD0000002, 0xA0000002, 0xA0000000], 0x1007) ∧
    result 0 (step (running (mask start 0xA5C3)
      [0x62, 0xF1, 0x74, 0xCA, 0xC6, 0xC2, 0xD8])) =
      some ([0xB000000F, 0, 0xA000000E, 0, 0, 0xB0000009, 0, 0xA0000008, 0xB0000007, 0xB0000005, 0, 0, 0, 0,
        0xA0000002, 0xA0000000], 0x1007) := by
  decide +kernel

/-- E9 and F8: a broadcast reads four bytes; E11: the full operand is read although every mask bit is 0. -/
theorem test_evex512_memory :
    result 0 (step (running (rax (holding start 0x3000 word) 0x3000)
      [0x62, 0xF1, 0x74, 0x58, 0xC6, 0x00, 0x1B])) =
      some ([0x12345678, 0x12345678, 0xA000000E, 0xA000000F, 0x12345678, 0x12345678, 0xA000000A, 0xA000000B,
        0x12345678, 0x12345678, 0xA0000006, 0xA0000007, 0x12345678, 0x12345678, 0xA0000002, 0xA0000003], 0x1007) ∧
    faultOf (step (running (rax (holding start 0x3000 word) 0x3000)
      [0x62, 0xF1, 0x74, 0x49, 0xC6, 0x00, 0x1B])) = some (.memoryFault 0x3000) := by
  decide +kernel

/-- L6, V8, E14 and F5: a form whose flag is absent is #UD, before its operand is read. -/
theorem test_features :
    faultOf (step (running (features start ⟨false, true, true, true⟩) [0x0F, 0xC6, 0xC1, 0x1B])) = some .invalidOpcode ∧
    faultOf (step (running (features start ⟨true, false, false, false⟩) [0xC5, 0xF0, 0xC6, 0x00, 0x1B])) = some .invalidOpcode ∧
    faultOf (step (running (features start ⟨true, true, true, false⟩) [0x62, 0xF1, 0x74, 0x09, 0xC6, 0xC2, 0x1B])) =
      some .invalidOpcode ∧
    (result 0 (step (running (features start ⟨true, true, true, false⟩) [0x62, 0xF1, 0x74, 0x48, 0xC6, 0xC2, 0x1B]))).isSome := by
  decide +kernel

/-- E15: a reserved encoding is #UD; SHUFPD is refused; the text ends; 32-bit bytes are refused. -/
theorem test_fetch_stops :
    faultOf (step (running start [0x62, 0xF1, 0x74, 0xC8, 0xC6, 0xC2, 0x1B])) = some .invalidOpcode ∧
    refusalOf (step (running start [0x66, 0x0F, 0xC6, 0xC1, 0x1B])) = some .otherInstruction ∧
    refusalOf (step (running start [0x0F, 0xC6, 0xC1])) = some .truncatedText ∧
    refusalOf (step start) = some .endOfText ∧
    refusalOf (step (running { start with cfg := { resetConfig with mode64 := false } } [0x0F, 0xC6, 0xC1, 0x1B])) =
      some .mode32Decode := by
  decide +kernel

/-- A table word with a register operand runs as the first instruction after reset; with ModRM 00 it reads `[rax]`,
where reset maps nothing (log 3, log 24). -/
theorem test_withFetchWord :
    (result 0 (step (State.reset.withFetchWord 32 0x0FC6C11B))).isSome ∧
    faultOf (step (State.reset.withFetchWord 16 0x0FC6)) = some (.memoryFault 0) := by
  decide +kernel

/-! ## Witnesses: the hypotheses of each obligation are met together

A completed step or instruction is shown by `completes`, a stop by `faultOf` or `refusalOf`. -/

/-- Whether an outcome is a next state. -/
def completes : Host.Outcome State Fault Refusal → Bool
  | .next _ => true
  | .fault _ => false
  | .refused _ => false

theorem next_of_completes {x : Host.Outcome State Fault Refusal} (h : completes x = true) : ∃ t, x = .next t := by
  cases x with
  | next t => exact ⟨t, rfl⟩
  | fault f => cases h
  | refused r => cases h

theorem fault_of_faultOf {x : Host.Outcome State Fault Refusal} {f : Fault} (h : faultOf x = some f) : x = .fault f := by
  cases x <;> simp_all [faultOf]

theorem refused_of_refusalOf {x : Host.Outcome State Fault Refusal} {r : Refusal} (h : refusalOf x = some r) :
    x = .refused r := by
  cases x <;> simp_all [refusalOf]

/-! ### The shuffle -/

/-- ShufVLLaneByLane, ShuffleClosedForm, ElementsAreCopied, MemoryElementOrder: the last lane and element of each length. -/
theorem test_witness_lane_and_element_bounds :
    0 < VL.v128.lanes ∧ 1 < VL.v256.lanes ∧ 3 < VL.v512.lanes ∧ 3 < VL.v128.kl ∧ 7 < VL.v256.kl ∧ 15 < VL.v512.kl := by
  decide

/-- HalvesDependOnOwnSource and BroadcastIgnoresHighControls: controls that agree on one half only. -/
theorem test_witness_half_controls :
    (0xEB : BitVec 8).extractLsb' 0 4 = (0x1B : BitVec 8).extractLsb' 0 4 ∧
    (0x14 : BitVec 8).extractLsb' 4 4 = (0x1B : BitVec 8).extractLsb' 4 4 ∧ (0xEB : BitVec 8) ≠ 0x1B := by decide

/-! ### Memory operands -/

/-- The bytes of E9 at 3000H, RAX there. -/
def withWord : State := rax (holding start 0x3000 word) 0x3000

/-- 64 zero bytes at 4000H, RAX there. -/
def withBlock : State := rax (holding start 0x4000 (List.replicate 64 0)) 0x4000

/-- The operand `[rax]`. -/
def atRax : MemOperand := .base 0 .absent

/-- MemReadLittleEndian, MemoryElementOrder: both sides hold of four bytes, of a read that ends at the top of the address
space, and neither of one that passes it. -/
theorem test_witness_memRead :
    (memRead withWord 0x3000 4).toOption = some 0x12345678 ∧
    (memRead (holding start (2 ^ 64 - 4) word) 0xFFFFFFFFFFFFFFFC 4).toOption = some 0x12345678 ∧
    (memRead (holding start (2 ^ 64 - 4) word) 0xFFFFFFFFFFFFFFFD 4).toOption = none ∧
    (memRead withBlock 0x4000 VL.v512.bytes).toOption = some 0 ∧
    (0x4000 : Addr).toNat + 4 * 15 < 2 ^ 64 := by decide +kernel

/-- AccessPastTopRefused: a VEX.256 operand that passes the top by 16 bytes, the legacy one that ends at it. -/
theorem test_witness_past_top :
    let i := Instr.vshufpsVex256C5 [] 0 1 (.mem atRax) 0
    let s := rax start 0xFFFFFFFFFFFFFFF0
    FormEnabled i s ∧ NoEnvFault i s ∧ i.record.src2 = .mem atRax ∧ AddressFormed i s ∧
      2 ^ s.cfg.aw < (operandAddress i s atRax).toNat + Record.operandSize i.record ∧
      refusalOf (exec i s) = some .accessPastTop ∧
      faultOf (exec (.shufps [] false 0 (.mem atRax) 0) s) = some (.memoryFault 0xFFFFFFFFFFFFFFF0) := by
  refine ⟨⟨by decide, by decide⟩, by unfold NoEnvFault; decide, rfl, .inl rfl, ?_, ?_, ?_⟩ <;> decide +kernel

/-- BroadcastReadsFourBytes: two memories that agree on four bytes and differ after them, over both of which E9's form
completes, and two over which it faults. -/
theorem test_witness_broadcast :
    let i := Instr.vshufpsEvex512 [] 0 1 (.mem atRax) 0x1B none false true
    let mem' := Memory.writeBytes [] 0x3000 (word ++ [0xFF])
    i.record.bcst = true ∧ Memory.read withWord.mem 0x3004 ≠ Memory.read mem' 0x3004 ∧
    SameEnvFault i withWord { withWord with mem := mem' } ∧
    (∀ k, k < 4 → Memory.read mem' ((operandAddress i withWord atRax).toNat + k) =
      Memory.read withWord.mem ((operandAddress i withWord atRax).toNat + k)) ∧
    completes (exec i withWord) = true ∧ faultOf (exec i (rax withWord 0x5000)) = some (.memoryFault 0x5000) := by
  unfold SameEnvFault; decide +kernel

/-- UnmappedOperandFaults: with every mask bit clear, and only the last byte missing. -/
theorem test_witness_unmapped :
    let i := Instr.vshufpsEvex128 [] 0 1 (.mem atRax) 0 (some 1) true false
    let s := rax (holding start 0x4000 (List.replicate 15 0)) 0x4000
    FormEnabled i s ∧ NoEnvFault i s ∧ AddressFormed i s ∧
      (operandAddress i s atRax).toNat + Record.operandSize i.record ≤ 2 ^ s.cfg.aw ∧
      Unmapped s.mem (operandAddress i s atRax).toNat (Record.operandSize i.record) := by
  refine ⟨⟨by decide, by decide⟩, by unfold NoEnvFault; decide, .inl rfl, by decide +kernel, 15, ?_, ?_⟩ <;>
    decide +kernel

/-- MisalignedLegacyFaults: what holds of `[rax]` at an address. -/
def misaligned (a : Addr) : Bool :=
  let i := Instr.shufps [] false 0 (.mem atRax) 0x1B
  let s := rax withBlock a
  !reservedCombination s.cfg i && enabled s.cfg.features i.form && envFault i.form.excClass i s == none &&
    s.cfg.mode64 && (operandAddress i s atRax).toNat % 16 != 0 && faultOf (exec i s) == some .generalProtection0

/-- One byte off on either side of a multiple of 16, and the multiple. -/
theorem test_witness_misaligned :
    misaligned 0x4001 = true ∧ misaligned 0x400F = true ∧ misaligned 0x4010 = false := by decide +kernel

/-! ### Addresses -/

/-- AddressingForms, AddressSizeUsesLow32 and SegmentOverrides: no override counts in `[.seg .ds]`, 67 is an address-size byte,
and two states whose registers differ above bit 31 only. -/
theorem test_witness_addresses :
    start.cfg.mode64 = true ∧ addressSizeByte [.seg .ds] = false ∧ overrides true [.seg .ds] = [] ∧
    addressSizeByte [.addrSize] = true ∧
    (let s' := { start with gpr := start.gpr.set 0 0xFFFFFFFF00000000, pc := 0x100001000 }
     start.cfg = s'.cfg ∧ start.pc.setWidth 32 = s'.pc.setWidth 32 ∧
     ∀ r, (start.readGpr r).setWidth 32 = (s'.readGpr r).setWidth 32) := by decide +kernel

/-! ### Results: Ready, with a register and with a memory operand -/

/-- `Ready` as a test that can be run. -/
def ready (i : Instr) (s : State) : Bool :=
  !reservedCombination s.cfg i && enabled s.cfg.features i.form && envFault i.form.excClass i s == none &&
    decide (s.pc.toNat + i.len < 2 ^ s.cfg.aw)

theorem ready_iff {i : Instr} {s : State} (h : ready i s = true) : Ready i s := by
  simp only [ready, Bool.and_eq_true, Bool.not_eq_true', beq_iff_eq, decide_eq_true_eq] at h
  exact ⟨⟨h.1.1.1, h.1.1.2⟩, h.1.2, h.2⟩

theorem secondSource_register {i : Instr} {s : State} {r : VReg} (h : i.record.src2 = .reg r) :
    SecondSourceIs i s (elem (s.readZmm r)) := by
  unfold SecondSourceIs; rw [h]; exact fun _ _ => rfl

/-- A memory operand that can be read gives a second source. -/
theorem secondSource_memory {i : Instr} {s : State} {m : MemOperand} (h : i.record.src2 = .mem m)
    (hr : (operandRead i s m).toOption.isSome = true) : ∃ f, SecondSourceIs i s f := by
  cases hv : operandRead i s m with
  | error e => rw [hv] at hr; cases hr
  | ok v =>
    refine ⟨fun j => elem v (if i.record.bcst then 0 else j), ?_⟩
    unfold SecondSourceIs; rw [h]
    exact ⟨v, operandRead_eq_ok.1 hv, fun _ _ => rfl⟩

/-- The eight instructions with a register second source, and with the memory operand `[rax]`. -/
def onRegister : List Instr :=
  [.shufps [] false 0 (.reg 1) 0x1B, .vshufpsVex128C5 [] 0 1 (.reg 2) 0x1B, .vshufpsVex128C4 [] 0 1 (.reg 2) 0x1B,
   .vshufpsVex256C5 [] 0 1 (.reg 2) 0x1B, .vshufpsVex256C4 [] 0 1 (.reg 2) 0x1B,
   .vshufpsEvex128 [] 0 1 (.reg 2) 0x1B (some 1) false false, .vshufpsEvex256 [] 0 1 (.reg 2) 0x1B (some 1) true false,
   .vshufpsEvex512 [] 31 1 (.reg 2) 0x1B none false false]

def onMemory : List Instr :=
  [.shufps [] false 0 (.mem atRax) 0x1B, .vshufpsVex128C5 [] 0 1 (.mem atRax) 0x1B,
   .vshufpsVex128C4 [] 0 1 (.mem atRax) 0x1B, .vshufpsVex256C5 [] 0 1 (.mem atRax) 0x1B,
   .vshufpsVex256C4 [] 0 1 (.mem atRax) 0x1B, .vshufpsEvex128 [] 0 1 (.mem atRax) 0x1B (some 1) false true,
   .vshufpsEvex256 [] 0 1 (.mem atRax) 0x1B (some 1) true false, .vshufpsEvex512 [] 31 1 (.mem atRax) 0x1B none false true]

/-- The result statements: their hypotheses hold of every constructor with a register. -/
theorem test_witness_results_register : start.cfg.fitsForms = true ∧ ∀ i ∈ onRegister, ready i start = true := by
  decide +kernel

/-- The result statements: their hypotheses hold of every constructor with a memory operand. -/
theorem test_witness_results_memory :
    ∀ i ∈ onMemory, i.record.src2 = .mem atRax ∧ ready i withBlock = true ∧
      (operandRead i withBlock atRax).toOption.isSome = true := by decide +kernel

/-- ShufpsResult's hypotheses for one memory form, put together from the tests above. -/
theorem test_witness_ready_and_source :
    Ready (.shufps [] false 0 (.mem atRax) 0x1B) withBlock ∧
      ∃ f, SecondSourceIs (.shufps [] false 0 (.mem atRax) 0x1B) withBlock f := by
  have h := test_witness_results_memory (.shufps [] false 0 (.mem atRax) 0x1B) (by decide)
  exact ⟨ready_iff h.2.1, secondSource_memory h.1 h.2.2⟩

/-- EvexZeroesUpperBits, CompletedFormFrame, MaskBitsAboveKLIgnored: each of the eight completes. -/
theorem test_witness_completes :
    (∀ i ∈ onRegister, completes (exec i start) = true) ∧ (∀ i ∈ onMemory, completes (exec i withBlock) = true) := by
  decide +kernel

/-- MaskBitsAboveKLIgnored: opmask registers that differ above KL only (E3), with EnvFault the same over both. -/
theorem test_witness_mask_bits :
    SameEnvFault (.vshufpsEvex128 [] 0 1 (.reg 2) 0x1B (some 1) false false) (mask start 5)
      { mask start 5 with k := (mask start 0xFFF5).k } ∧
    ∀ n : KReg, (((mask start 0xFFF5).k)[n.toNat]'n.isLt).extractLsb' 0 VL.v128.kl =
      ((mask start 5).readK n).extractLsb' 0 VL.v128.kl := by unfold SameEnvFault; decide +kernel

/-- EvexZeroesUpperBits: an all-zero writemask, merging (E4), where MAXVL is at least the VL of every supported form (R5). -/
theorem test_witness_empty_mask :
    start.cfg.fitsForms = true ∧ (start.readK 1).extractLsb' 0 VL.v256.kl = 0 ∧
    completes (exec (.vshufpsEvex256 [] 0 1 (.reg 2) 0x1B (some 1) false false) start) = true := by decide +kernel

/-- OutcomeIgnoresElementValues: two memories that map the same addresses to different bytes; the table of EnvFault is empty,
so it answers alike over any two states that share it. -/
theorem test_witness_same_domain :
    let m := Memory.writeBytes [] 0x3000 [1]
    let m' := Memory.writeBytes [] 0x3000 [2]
    (∀ i, SameEnvFault i { start with mem := m } { start with mem := m' }) ∧ m ≠ m' ∧ ∀ a, Memory.read m' a = none ↔ Memory.read m a = none :=
  ⟨fun _ => rfl, by decide, fun a => by by_cases h : 0x3000 = a <;> simp [Memory.writeBytes, Memory.write, Memory.read, unlisted, h]⟩

/-- ShufpsOnOneRegister. -/
theorem test_witness_one_register :
    ready (.shufps [] false 0 (.reg 0) 0xE4) start = true ∧ ready (.shufps [] false 0 (.reg 0) 0x1B) start = true := by
  decide +kernel

/-- EvexUnmaskedEqualsVex: an EVEX form and the VEX form of its length both complete on an operand, at one address. -/
def bothComplete (s : State) (e v : Instr) (m : MemOperand) : Bool :=
  completes (exec e s) && completes (exec v s) && operandAddress e s m == operandAddress v s m

/-- EvexUnmaskedEqualsVex: over registers and over memory, for both lengths. -/
theorem test_witness_evex_and_vex :
    (∀ src ∈ [RM.reg 2, .mem atRax],
      (∀ v ∈ [Instr.vshufpsVex128C5 [] 0 1 src 0x1B, .vshufpsVex128C4 [] 0 1 src 0x1B],
        bothComplete withBlock (.vshufpsEvex128 [] 0 1 src 0x1B none false false) v atRax = true) ∧
      ∀ v ∈ [Instr.vshufpsVex256C5 [] 0 1 src 0x1B, .vshufpsVex256C4 [] 0 1 src 0x1B],
        bothComplete withBlock (.vshufpsEvex256 [] 0 1 src 0x1B none false false) v atRax = true) := by decide +kernel

/-- LegacyAndVexDifferAbove128: the VEX form with `d = s1` completes where the legacy form does. -/
theorem test_witness_legacy_and_vex :
    completes (exec (.shufps [] false 0 (.reg 1) 0x1B) start) = true ∧
    completes (exec (.vshufpsVex128C5 [] 0 0 (.reg 1) 0x1B) start) = true := by decide +kernel

/-! ### Steps, faults and refusals -/

/-- NoStepWritesMemory, StepAdvancesPc, StepKeepsParameters, StepKeepsInv: a step completes. -/
theorem test_witness_step : ∃ t, step (running start [0x0F, 0xC6, 0xC1, 0x1B]) = .next t :=
  next_of_completes (by decide +kernel)

/-- StepKeepsInv: the invariant holds of the state that `test_witness_step` steps from. -/
theorem test_witness_invariant : MachineInv (running start [0x0F, 0xC6, 0xC1, 0x1B]) where
  cfg := by decide
  mem := ⟨by decide, by unfold Memory.below; decide⟩
  text := ⟨by decide, by unfold Memory.below; decide⟩
  zmm := by decide +kernel
  zmmAbsent := by decide +kernel
  k := by decide +kernel
  kAbsent := by decide +kernel
  pc := by decide

/-- AbsentFeatureFaults: each flag a form needs, absent alone. -/
theorem test_witness_absent_feature :
    faultOf (exec (.shufps [] false 0 (.reg 1) 0) (features start ⟨false, true, true, true⟩)) = some .invalidOpcode ∧
    faultOf (exec (.vshufpsVex256C4 [] 0 1 (.reg 1) 0) (features start ⟨true, false, true, true⟩)) = some .invalidOpcode ∧
    faultOf (exec (.vshufpsEvex256 [] 0 1 (.reg 1) 0 none false false) (features start ⟨true, true, false, true⟩)) =
      some .invalidOpcode ∧
    faultOf (exec (.vshufpsEvex512 [] 0 1 (.reg 1) 0 none false false) (features start ⟨true, true, false, true⟩)) =
      some .invalidOpcode := by decide +kernel

/-- ReservedCombinationsFault: each of its three cases. -/
theorem test_witness_reserved_combination :
    faultOf (exec (.vshufpsEvex128 [] 0 1 (.reg 2) 0 none true false) start) = some .invalidOpcode ∧
    faultOf (exec (.vshufpsEvex256 [] 0 1 (.reg 2) 0 none false true) start) = some .invalidOpcode ∧
    faultOf (exec (.vshufpsEvex512 [] 0 1 (.mem atRax) 0 (some 0) false true) start) = some .invalidOpcode := by
  decide +kernel

/-- 32-bit mode (log 13). -/
def in32 (s : State) : State := { s with cfg := { s.cfg with mode64 := false } }

/-- Fewer registers than the defaults of D4. -/
def fewer (s : State) : State := { s with cfg := { s.cfg with nvec := 12, nmask := 4 } }

/-- RegisterNumberOutOfRangeFaults, vector and opmask registers: each bound at its first register, and the last one in range. -/
theorem test_witness_register_range :
    faultOf (exec (.vshufpsEvex128 [] 7 1 (.reg 8) 0 none false false) (in32 start)) = some .invalidOpcode ∧
    completes (exec (.vshufpsEvex128 [] 7 1 (.reg 7) 0 none false false) (in32 start)) = true ∧
    faultOf (exec (.vshufpsVex128C4 [] 0 16 (.reg 2) 0) start) = some .invalidOpcode ∧
    completes (exec (.vshufpsVex128C4 [] 0 15 (.reg 2) 0) start) = true ∧
    faultOf (exec (.vshufpsEvex128 [] 12 1 (.reg 2) 0 none false false) (fewer start)) = some .invalidOpcode ∧
    faultOf (exec (.vshufpsEvex128 [] 11 1 (.reg 2) 0 (some 4) false false) (fewer start)) = some .invalidOpcode ∧
    completes (exec (.vshufpsEvex128 [] 11 1 (.reg 2) 0 (some 3) false false) (fewer start)) = true := by decide +kernel

/-- RegisterNumberOutOfRangeFaults, general registers and the REX byte in 32-bit mode. -/
theorem test_witness_range_32 :
    faultOf (exec (.shufps [] false 0 (.mem (.base 8 .absent)) 0) (in32 withBlock)) = some .invalidOpcode ∧
    faultOf (exec (.shufps [] false 0 (.mem (.sib 0 (some ⟨8, 0⟩) .absent)) 0) (in32 withBlock)) = some .invalidOpcode ∧
    faultOf (exec (.shufps [] true 0 (.mem atRax) 0) (in32 withBlock)) = some .invalidOpcode ∧
    completes (exec (.shufps [] false 0 (.mem (.sib 0 (some ⟨7, 0⟩) .absent)) 0) (in32 withBlock)) = true := by decide +kernel

/-- A state whose EnvFault names a fault for an instruction in that very state. -/
def withEnv (s : State) (i : Instr) (f : EnvFault) : State := { s with env := [⟨i.form.excClass, i, s.toMachineState, f⟩] }

/-- RegisterOperandFaults: #NM with a register operand; a page fault is no fault of it (R110), and it completes. -/
theorem test_witness_register_operand_faults :
    let i := Instr.shufps [] false 0 (.reg 1) 0x1B
    faultOf (exec i (withEnv start i .deviceNotAvailable)) = some (.environment .deviceNotAvailable) ∧
    completes (exec i (withEnv start i (.pageFault 4))) = true := by decide +kernel

/-- FaultsAreThoseOfTheTable: EnvFault's fault comes before misalignment (R153, R161, F7). -/
theorem test_witness_envFault :
    let i := Instr.shufps [] false 0 (.mem atRax) 0x1B
    let s := withEnv (rax start 1) i (.pageFault 4)
    envFault i.form.excClass i s = some (.pageFault 4) ∧
    faultOf (exec i s) = some (.environment (.pageFault 4)) ∧
    faultOf (exec i { s with pc := 0x2000 }) = some .generalProtection0 ∧
    faultOf (exec i (mask s 7)) = some .generalProtection0 := by decide +kernel

/-- TextPastTopRefused: the last `pc` that an instruction of 4 bytes can complete at, and the next. -/
theorem test_witness_text_past_top :
    completes (exec (.shufps [] false 0 (.reg 1) 0) { start with pc := 0xFFFFFFFFFFFFFFFB }) = true ∧
    refusalOf (exec (.shufps [] false 0 (.reg 1) 0) { start with pc := 0xFFFFFFFFFFFFFFFC }) = some .textPastTop := by
  decide +kernel

/-- Addressing16Refused. -/
theorem test_witness_addressing16 :
    refusalOf (exec (.shufps [.addrSize] false 0 (.mem atRax) 0) (in32 start)) = some .addressing16 ∧
    completes (exec (.shufps [.addrSize] false 0 (.mem atRax) 0) withBlock) = true := by decide +kernel

/-- DecodeEncode and StepRunsEncoded: each of the sixteen instructions above is well-formed. -/
theorem test_witness_wellFormed : ∀ i ∈ onRegister ++ onMemory, i.wellFormed = true := by decide

/-- DecodedIsWellFormed, LengthIsBytesConsumed, DecodedMatchesItsRow, StepRunsDecoded, StepRunsEncoded: bytes that decode,
with bytes after them, and that stand in the text at `pc`. -/
theorem test_witness_decoded :
    parse [0xC5, 0xF0, 0xC6, 0xC2, 0x1B, 0x90] = .ok (.vshufpsVex128C5 [] 0 1 (.reg 2) 0x1B, [0x90]) ∧
    decode (textBytes (running start [0xC5, 0xF0, 0xC6, 0xC2, 0x1B, 0x90]).text start.pc.toNat maxLen) =
      .ok (.vshufpsVex128C5 [] 0 1 (.reg 2) 0x1B) ∧
    fixedBytes [0x64, 0x45, 0x0F, 0xC6] = [0x0F, 0xC6] ∧
    (∀ k : Fin 4, Memory.read (running start [0x0F, 0xC6, 0xC1, 0x1B]).text (start.pc.toNat + k) =
      some (encode (.shufps [] false 0 (.reg 1) 0x1B))[k.val]) := by decide +kernel

/-- EvexReservedEncodings: the fixed fields hold of E6's word and of each word R87 rejects (`test_decode_rejected`). -/
theorem test_witness_evex_fields :
    (0xF1 : Byte).extractLsb' 0 2 = 1 ∧ (0x74 : Byte).extractLsb' 0 2 = 0 ∧ (0xF4 : Byte).extractLsb' 0 2 = 0 ∧
    (0xF5 : Byte).extractLsb' 0 2 = 1 ∧ (0xC2 : Byte).extractLsb' 6 2 = 3 := by decide

/-- ForbiddenPrefixesRejected: 66 and F3 among the prefixes. -/
theorem test_witness_forbidden_prefixes :
    RawPrefix.opSize ∈ (takePrefixes [0x64, 0x66, 0x0F, 0xC6, 0xC1, 0x1B]).1 ∧
    RawPrefix.lockOrRep ∈ (takePrefixes [0xF3, 0x0F, 0xC6, 0xC1, 0x1B]).1 := by decide

/-- ReservedEncodingFaults and EndOfTextAndMode32Refused. -/
theorem test_witness_reserved_encoding :
    decode (textBytes (running start [0x62, 0xF1, 0xF4, 0x48, 0xC6, 0xC2, 0x1B]).text start.pc.toNat maxLen) =
      .error (.reserved .evexW) ∧
    Memory.read start.text start.pc.toNat = none ∧
    Memory.read (running (in32 start) [0x0F, 0xC6, 0xC1, 0x1B]).text start.pc.toNat ≠ none := by decide +kernel

end Sys2Proof.Tests
end

section
/-! SUPPORT. What a completing step leaves, and with it that data memory never changes (20_memory.md R44). -/

namespace Sys2Proof.Machine

/-- A completing step ran one fetched instruction, whose premises held, and wrote its destination register and `pc` only. -/
theorem step_next_eq_after {s t : State} (h : step s = .next t) :
    ∃ i b, fetch s = .ok i ∧ Ready i s ∧ source i s = .ok b ∧ t = s.after i i.record.dest (newDest i s b) := by
  obtain ⟨i, hfetch, hexec⟩ := step_eq_next.1 h
  obtain ⟨hready, b, hsource, ht⟩ := exec_eq_next.1 hexec
  exact ⟨i, b, hfetch, hready, hsource, ht⟩

/-- A completing step keeps the memory map as a whole. -/
theorem step_next_mem {s t : State} (h : step s = .next t) : t.mem = s.mem := by
  obtain ⟨i, b, -, -, -, rfl⟩ := step_next_eq_after h
  exact after_mem ..

/-- Settles O30: the memory map itself is kept, so every byte read from it is. -/
theorem noStepWritesMemory : Obligations.NoStepWritesMemory := by
  intro s t h
  have hmem : t.mem = s.mem := step_next_mem h
  exact ⟨hmem, fun a => congrArg (Memory.read · a) hmem⟩

end Sys2Proof.Machine
end

section
/-! SUPPORT. What Shuf128 and ShufVL hold, slice by slice and lane by lane (40_shuffle_function.md R101, R102). -/

namespace Sys2Proof.Machine

/-- Element `p` of Shuf128, with its source and its control (R101). -/
theorem extract_shuf128 (a b : Lane) (imm8 : BitVec 8) (p : Nat) (h : p < 4) :
    (shuf128 a b imm8).extractLsb' (32 * p) 32 = select4 (if p < 2 then a else b) (imm8.extractLsb' (2 * p) 2) := by
  rw [shuf128, extract_four _ _ _ _ _ h]
  obtain rfl | rfl | rfl | rfl : p = 0 ∨ p = 1 ∨ p = 2 ∨ p = 3 := by omega
  all_goals rfl

/-- Settles O2: the four elements of Shuf128. -/
theorem shuf128Slices : Obligations.Shuf128Slices := fun a b imm8 =>
  ⟨extract_shuf128 a b imm8 0 (by decide), extract_shuf128 a b imm8 1 (by decide),
    extract_shuf128 a b imm8 2 (by decide), extract_shuf128 a b imm8 3 (by decide)⟩

/-- Each lane of ShufVL, those above VL included. -/
theorem lane_shufVL (vl : VL) (a b : Vec) (imm8 : BitVec 8) (n : Nat) (h : n < 4) :
    lane (shufVL vl a b imm8) n = if n < vl.lanes then shuf128 (lane a n) (lane b n) imm8 else 0 :=
  lane_ofLanes _ n h

/-- ShufVL has no element from KL up. -/
theorem elem_shufVL_of_kl_le (vl : VL) (a b : Vec) (imm8 : BitVec 8) (e : Nat) (hk : vl.kl ≤ e) (he : e < 16) :
    elem (shufVL vl a b imm8) e = 0 := by
  obtain ⟨-, hlanes, -, -⟩ := vl_bits_eq vl
  rw [elem_eq_lane, lane_shufVL _ _ _ _ _ (by omega), if_neg (by omega), extract_zero]

/-- Lane 0 is the low 128 bits. -/
theorem lane_zero (v : Vec) : lane v 0 = v.setWidth 128 :=
  (BitVec.setWidth_eq_extractLsb' (by decide)).symm

/-- A value whose lane 0 alone is given is that lane, zero-extended. -/
theorem ofLanes_low_lane (f : Nat → Lane) (h : ∀ n, 0 < n → f n = 0) : ofLanes f = (f 0).setWidth 512 := by
  rw [ofLanes, h 3 (by decide), h 2 (by decide), h 1 (by decide)]
  simp [BitVec.setWidth_eq_append]

/-- At 128 bits ShufVL is Shuf128 of the low 128 bits, zero-extended. -/
theorem shufVL_v128 (a b : Vec) (imm8 : BitVec 8) :
    shufVL .v128 a b imm8 = (shuf128 (a.setWidth 128) (b.setWidth 128) imm8).setWidth 512 := by
  rw [← lane_zero, ← lane_zero]
  exact ofLanes_low_lane _ fun n hn => if_neg (Nat.not_lt.mpr hn)

/-- Settles O3: the lanes below VL, the zeros above it, and the 128-bit case. -/
theorem shufVLLaneByLane : Obligations.ShufVLLaneByLane := by
  intro vl a b imm8
  refine ⟨fun n hn => ?_, low_eq_self vl _ (elem_shufVL_of_kl_le vl a b imm8), shufVL_v128 a b imm8⟩
  obtain ⟨-, hlanes, -, hkl⟩ := vl_bits_eq vl
  rw [lane_shufVL _ _ _ _ _ (by omega), if_pos hn]

end Sys2Proof.Machine
end

section
/-! SUPPORT. What an EVEX form leaves in its destination from VL up, and under an empty mask (43_vshufps_evex.md R132, R133). -/

namespace Sys2Proof.Machine

/-- The destination of an EVEX form: the masked write-back, cut off at MAXVL. -/
theorem newDest_of_isEvex {i : Instr} (h : i.form.isEvex = true) (s : State) (b : Vec) :
    newDest i s b = low s.cfg.maxvl.bits (blend i.form.vl (writemask s i.record.mask) i.record.z
      (shufVL i.form.vl (s.readZmm i.record.src1) b i.record.imm8) (s.readZmm i.record.dest)) := by
  have hne : i.form ≠ .shufps := fun hf => by simp [hf, Form.isEvex] at h
  rw [newDest, if_neg hne, if_pos h]

/-- A value of VL bits still has no bit from VL up once it is cut off at another length. -/
theorem low_low_of_low_eq {vl : VL} {v : Vec} (h : low vl.bits v = v) (vl' : VL) :
    low vl.bits (low vl'.bits v) = low vl'.bits v := by
  refine low_eq_self vl _ fun e hk _ => ?_
  rw [elem_low, ← h, elem_low, if_neg (Nat.not_lt.2 hk), ite_self]

/-- Cutting off at a longer length keeps a value cut off at a shorter one. -/
theorem low_low_of_kl_le {vl vl' : VL} (h : vl.kl ≤ vl'.kl) (v : Vec) :
    low vl'.bits (low vl.bits v) = low vl.bits v :=
  low_eq_self vl' _ fun e hk _ => by rw [elem_low, if_neg (by omega)]

/-- The masked write-back has VL bits. -/
theorem low_blend (vl : VL) (m : Nat → Bool) (z : Bool) (tmp old : Vec) :
    low vl.bits (blend vl m z tmp old) = blend vl m z tmp old :=
  low_eq_self vl _ fun e hk he => by rw [elem_blend _ _ _ _ _ _ he, if_neg (Nat.not_lt.2 hk)]

/-- Under merging-masking an empty mask gives the old value back, VL bits of it. -/
theorem blend_empty_merging {vl : VL} {m : Nat → Bool} (h : ∀ j, j < vl.kl → m j = false) (tmp old : Vec) :
    blend vl m false tmp old = low vl.bits old := by
  apply ext_elem
  intro e he
  rw [elem_blend _ _ _ _ _ _ he, elem_low]
  by_cases hk : e < vl.kl
  · simp [hk, h e hk]
  · simp [hk]

/-- A writemask register whose `n` low bits are clear sets no mask bit below `n`. -/
theorem writemask_eq_false {s : State} {k : KReg} {n : Nat} (h : (s.readK k).extractLsb' 0 n = 0) (j : Nat)
    (hj : j < n) : writemask s (some k) j = false := by
  have hbit := congrArg (fun v => v.getLsbD j) h
  simpa [writemask, hj] using hbit

/-- Settles O24: the masked write-back has VL bits, and under an empty merging mask it is the old value's VL bits, which
MAXVL does not cut off. -/
theorem evexZeroesUpperBits : Obligations.EvexZeroesUpperBits := by
  intro i s t hevex hexec
  obtain ⟨⟨⟨-, henabled⟩, -, -⟩, b, -, rfl⟩ := exec_eq_next.1 hexec
  rw [readZmm_after_self, newDest_of_isEvex hevex]
  refine ⟨low_low_of_low_eq (low_blend ..) _, fun n hfits hmask hz hempty => ?_⟩
  rw [hmask, hz, blend_empty_merging (writemask_eq_false hempty), low_low_of_kl_le (kl_le_maxvl hfits henabled)]

end Sys2Proof.Machine
end

section
/-! SUPPORT. The decoder reads back what the encoder writes (30_encoding.md R68 to R83): each prefix's fields, then each form. -/

namespace Sys2Proof

-- Proofs are elaborated one after another: beside the frozen tests, elaborating these in parallel takes more threads than the
-- memory limit of the check has stacks for. No section variable is declared, so the option changes nothing else.
set_option deprecated.oldSectionVars true

/-! ## The fields of the prefix bytes that the encoder writes -/

/-- REX (R68): no legacy prefix byte, no VEX, EVEX or opcode byte, and R, X and B where the decoder looks for them. -/
theorem rexByte_fields : ∀ r x b : Bool,
    rawPrefixOf (rexByte r x b) = none ∧ (rexByte r x b).extractLsb' 4 4 = 4 ∧
    (rexByte r x b).getLsbD 2 = r ∧ (rexByte r x b).getLsbD 1 = x ∧ (rexByte r x b).getLsbD 0 = b := by decide

theorem getLsbD_eq_of_extract {n k : Nat} {p : BitVec n} {v : Bool} (h : p.extractLsb' k 1 = bit v) : p.getLsbD k = v := by
  simpa using congrArg (fun q => q.getLsbD 0) h

/-- The second byte of C5 and the third of C4 (R69, R70): one bit, `vvvv` inverted, L, and `pp` 00. -/
theorem vexByte_fields (a l : Bool) (v : BitVec 4) : let p : Byte := bit a ++ ~~~v ++ bit l ++ (0 : BitVec 2)
    p.getLsbD 7 = a ∧ ~~~(p.extractLsb' 3 4) = v ∧ p.getLsbD 2 = l ∧ p.extractLsb' 0 2 = 0 := by
  have hv : v = ~~~(~~~v) := BitVec.not_not.symm
  refine ⟨getLsbD_eq_of_extract ?_, hv ▸ congrArg _ ?_, getLsbD_eq_of_extract ?_, ?_⟩
  all_goals repeat rw [Machine.extract_append_high _ _ _ _ (by decide)]
  · simp
  all_goals rw [Machine.extract_append_low _ _ _ _ (by decide)]; simp

/-- The second byte of C4 (R69): R, X and B inverted, and map 1. -/
theorem vexMapByte_fields : ∀ r x b : Bool, let p : Byte := bit (!r) ++ bit (!x) ++ bit (!b) ++ (1 : BitVec 5)
    (!p.getLsbD 7) = r ∧ (!p.getLsbD 6) = x ∧ (!p.getLsbD 5) = b ∧ p.extractLsb' 0 5 = 1 := by decide

/-- P0 of EVEX (R71): R, X, B and R' inverted, two zeros, and map 1. -/
theorem evexP0_fields : ∀ r x b r' : Bool,
    let p : Byte := bit (!r) ++ bit (!x) ++ bit (!b) ++ bit (!r') ++ (0 : BitVec 2) ++ (1 : BitVec 2)
    (!p.getLsbD 7) = r ∧ (!p.getLsbD 6) = x ∧ (!p.getLsbD 5) = b ∧ (!p.getLsbD 4) = r' ∧
      p.extractLsb' 2 2 = 0 ∧ p.extractLsb' 0 2 = 1 := by decide

/-- P2 of EVEX (R71): z, L'L, b, V' inverted, and aaa. -/
theorem evexP2_fields (z b v' : Bool) (ll : BitVec 2) (aaa : BitVec 3) :
    let p : Byte := bit z ++ ll ++ bit b ++ bit (!v') ++ aaa
    p.getLsbD 7 = z ∧ p.extractLsb' 5 2 = ll ∧ p.getLsbD 4 = b ∧ (!p.getLsbD 3) = v' ∧ p.extractLsb' 0 3 = aaa := by
  refine ⟨getLsbD_eq_of_extract ?_, ?_, getLsbD_eq_of_extract ?_, Bool.not_eq_eq_eq_not.2 (getLsbD_eq_of_extract ?_), ?_⟩
  all_goals repeat rw [Machine.extract_append_high _ _ _ _ (by decide)]
  · simp
  all_goals rw [Machine.extract_append_low _ _ _ _ (by decide)]; simp

/-! ## Register numbers put together from their fields -/

theorem vreg_eq_low_bits : ∀ d : VReg, d.toNat < 16 → bit false ++ bit (d.getLsbD 3) ++ d.extractLsb' 0 3 = d := by decide

theorem vreg_eq_low_field : ∀ s1 : VReg, s1.toNat < 16 → (bit false ++ s1.extractLsb' 0 4 : VReg) = s1 := by decide

theorem vreg_eq_field : ∀ s1 : VReg, (bit (s1.getLsbD 4) ++ s1.extractLsb' 0 4 : VReg) = s1 := by decide

theorem vreg_bit3_clear : ∀ d : VReg, d.toNat < 8 → d.getLsbD 3 = false := by decide

theorem greg_bit3_clear : ∀ g : GReg, g.toNat < 8 → g.getLsbD 3 = false := by decide

/-- An operand whose registers are below 8 needs no extension bit. -/
theorem RM.bits_clear {src : RM} (h : src.regsBelow 8 8 = true) : src.bitX = false ∧ src.bitB = false := by
  have hidx : ∀ idx : Option Index, idx.all (fun i => decide (i.reg.toNat < 8)) = true → indexX idx = false := by
    rintro (_ | i) hi
    · rfl
    · exact greg_bit3_clear _ (by simpa using hi)
  match src, h with
  | .reg r, h =>
    have hr : r.toNat < 8 := by simpa [RM.regsBelow] using h
    exact ⟨vreg_high_clear r (by omega), vreg_bit3_clear r hr⟩
  | .mem (.base b _), h => exact ⟨rfl, greg_bit3_clear b (by simpa [RM.regsBelow, MemOperand.gprsBelow] using h)⟩
  | .mem (.ripRel _), _ => exact ⟨rfl, rfl⟩
  | .mem (.sib b idx _), h =>
    simp only [RM.regsBelow, MemOperand.gprsBelow, Bool.and_eq_true, decide_eq_true_eq] at h
    exact ⟨hidx idx h.2, greg_bit3_clear b h.1⟩
  | .mem (.sibNoBase idx _), h => exact ⟨hidx idx h, rfl⟩

theorem MemOperand.gprsBelow_sixteen (m : MemOperand) : m.gprsBelow 16 = true := by
  have hg : ∀ g : GReg, g.toNat < 16 := fun g => g.isLt
  cases m <;> simp [MemOperand.gprsBelow, hg]

/-- An operand whose registers are below 8 has them below 16. -/
theorem RM.regsBelow_sixteen {src : RM} (h : src.regsBelow 8 8 = true) : src.regsBelow 16 16 = true := by
  cases src with
  | reg r =>
    have hr : r.toNat < 8 := by simpa [RM.regsBelow] using h
    exact decide_eq_true (by omega)
  | mem m => exact MemOperand.gprsBelow_sixteen m

/-- A register operand below 16 needs no fifth bit. -/
theorem RM.fifth_bit_clear {src : RM} {n m : Nat} (h : src.regsBelow n m = true) (hn : n ≤ 16) :
    ∀ r, src = .reg r → false = r.getLsbD 4 := by
  rintro r rfl
  have hr : r.toNat < n := by simpa [RM.regsBelow] using h
  exact (vreg_high_clear r (by omega)).symm

/-- The writemask is the one its field names, unless it is K[0] (R74). -/
theorem maskOf_aaaField {mask : Option KReg} (h : mask ≠ some 0) : maskOf (aaaField mask) = mask := by
  cases mask with
  | none => rfl
  | some n => exact if_neg fun hn => h (congrArg some hn)

/-- What a combination of EVEX fields must be not to be reserved (R87, R134). -/
theorem evexFieldsOk_iff {src : RM} {mask : Option KReg} {z b : Bool} :
    evexFieldsOk src mask z b = true ↔
      mask ≠ some 0 ∧ (z = true → mask ≠ none) ∧ (b = true → src.isMem = true) := by
  unfold evexFieldsOk
  cases z <;> cases b <;> cases mask <;> simp

/-! ## The forms -/

/-- After the prefixes of an encoded instruction the decoder goes on with the rest. -/
theorem parse_prefixBytes (pre : List LegacyPrefix) (v : Byte) (vs : List Byte) (h : rawPrefixOf v = none) :
    parse (prefixBytes pre ++ v :: vs) = takeBody (pre.map .allowed) (v :: vs) := by
  rw [parse, takePrefixes_prefixBytes _ _ _ h]

/-- The bytes of a form's end, with what follows them. -/
theorem tailBytes_append (d : VReg) (src : RM) (imm8 : BitVec 8) (vs : List Byte) :
    tailBytes d src imm8 ++ vs = 0xC6 :: (src.bytes (d.extractLsb' 0 3) ++ imm8 :: vs) := by
  simp [tailBytes]

theorem takeByte_cons (v : Byte) (vs : List Byte) : takeByte (v :: vs) = .ok (v, vs) := rfl

theorem rejectIf_false (e : DecodeError) : rejectIf false e = .ok () := rfl

theorem bind_ok {α β ε : Type} (a : α) (f : α → Except ε β) : ((Except.ok a : Except ε α) >>= f) = f a := rfl

/-- No prefix that R88 allows is a rejected one. -/
theorem contains_map_allowed (pre : List LegacyPrefix) (q : RawPrefix) (h : q.legacy? = none) :
    (pre.map RawPrefix.allowed).contains q = false := by
  simp only [List.contains_eq_mem, List.mem_map, decide_eq_false_iff_not]
  rintro ⟨p, -, rfl⟩
  cases h

/-- The legacy form reads its end, with the extension bits of its REX byte, or none (R68). -/
theorem takeLegacy_tailBytes {pre : List LegacyPrefix} {rex : Option Byte} {d : VReg} {src : RM} (imm8 : BitVec 8)
    (vs : List Byte) (hok : src.ok = true) (hd : d.toNat < 16) (hsrc : src.regsBelow 16 16 = true)
    (hr : (rex.getD 0).getLsbD 2 = d.getLsbD 3) (hx : (rex.getD 0).getLsbD 1 = src.bitX)
    (hb : (rex.getD 0).getLsbD 0 = src.bitB) :
    takeLegacy (pre.map .allowed) rex (tailBytes d src imm8 ++ vs) = .ok (.shufps pre rex.isSome d src imm8, vs) := by
  simp only [tailBytes_append, takeLegacy, takeByte_cons, bind_ok, contains_map_allowed pre .opSize rfl,
    contains_map_allowed pre .lockOrRep rfl, bne_self_eq_false, Bool.or_self, rejectIf_false, hr, hx, hb,
    takeModRM_bytes src _ _ _ hok (RM.fifth_bit_clear hsrc le_rfl), allowedPrefixes_map, vreg_eq_low_bits d hd]
  rfl

theorem takeBody_evex (raw : List RawPrefix) (vs : List Byte) : takeBody raw (0x62 :: vs) = takeEvex raw vs := rfl

theorem takeBody_vexC4 (raw : List RawPrefix) (vs : List Byte) : takeBody raw (0xC4 :: vs) = takeVexC4 raw vs := rfl

theorem takeBody_vexC5 (raw : List RawPrefix) (vs : List Byte) : takeBody raw (0xC5 :: vs) = takeVexC5 raw vs := rfl

theorem takeBody_legacy (raw : List RawPrefix) (vs : List Byte) : takeBody raw (0x0F :: vs) = takeLegacy raw none vs := rfl

/-- A REX byte before `0F` is set aside for the legacy form (R68, R88). -/
theorem takeBody_rex {v : Byte} (h : v.extractLsb' 4 4 = 4) (raw : List RawPrefix) (vs : List Byte) :
    takeBody raw (v :: 0x0F :: vs) = takeLegacy raw (some v) vs := by
  have hne : ∀ w : Byte, w.extractLsb' 4 4 ≠ 4 → v ≠ w := fun w hw hv => hw (hv ▸ h)
  simp only [takeBody, takeByte_cons, bind_ok, if_neg (hne 0x62 (by decide)), if_neg (hne 0xC4 (by decide)),
    if_neg (hne 0xC5 (by decide)), if_neg (hne 0x0F (by decide)), if_pos h]
  rfl

/-- The two-byte VEX prefix and its end (R70), with a second source that needs no extension bit. -/
theorem parse_vexC5 (pre : List LegacyPrefix) (l : Bool) {d s1 : VReg} {src : RM} (imm8 : BitVec 8) (vs : List Byte)
    (hok : src.ok = true) (hd : d.toNat < 16) (hs1 : s1.toNat < 16) (hsrc : src.regsBelow 8 8 = true) :
    parse (prefixBytes pre ++ vexC5Bytes l d s1 ++ tailBytes d src imm8 ++ vs) =
      .ok (if l then .vshufpsVex256C5 pre d s1 src imm8 else .vshufpsVex128C5 pre d s1 src imm8, vs) := by
  obtain ⟨hX, hB⟩ := RM.bits_clear hsrc
  have hrm := takeModRM_bytes src (d.extractLsb' 0 3) false (imm8 :: vs) hok (RM.fifth_bit_clear hsrc (by decide))
  rw [hX, hB] at hrm
  obtain ⟨hR, hv, hl, hpp⟩ := vexByte_fields (!d.getLsbD 3) l (s1.extractLsb' 0 4)
  simp only [List.append_assoc, vexC5Bytes, List.cons_append, List.nil_append]
  rw [parse_prefixBytes _ _ _ (by decide), takeBody_vexC5]
  simp only [tailBytes_append, takeVexC5, takeByte_cons, bind_ok, hR, hv, hl, hpp, bne_self_eq_false, Bool.or_self,
    rejectIf_false, hrm, vexPrefixesOk_map, allowedPrefixes_map, Bool.not_true, Bool.not_not, vreg_eq_low_bits d hd,
    vreg_eq_low_field s1 hs1]
  rfl

/-- The three-byte VEX prefix and its end (R69). -/
theorem parse_vexC4 (pre : List LegacyPrefix) (l : Bool) {d s1 : VReg} {src : RM} (imm8 : BitVec 8) (vs : List Byte)
    (hok : src.ok = true) (hd : d.toNat < 16) (hs1 : s1.toNat < 16) (hsrc : src.regsBelow 16 16 = true) :
    parse (prefixBytes pre ++ vexC4Bytes l d s1 src ++ tailBytes d src imm8 ++ vs) =
      .ok (if l then .vshufpsVex256C4 pre d s1 src imm8 else .vshufpsVex128C4 pre d s1 src imm8, vs) := by
  have hrm := takeModRM_bytes src (d.extractLsb' 0 3) false (imm8 :: vs) hok (RM.fifth_bit_clear hsrc le_rfl)
  obtain ⟨hR, hX, hB, hmap⟩ := vexMapByte_fields (d.getLsbD 3) src.bitX src.bitB
  obtain ⟨-, hv, hl, hpp⟩ := vexByte_fields false l (s1.extractLsb' 0 4)
  simp only [List.append_assoc, vexC4Bytes, List.cons_append, List.nil_append]
  rw [parse_prefixBytes _ _ _ (by decide), takeBody_vexC4]
  simp only [tailBytes_append, takeVexC4, takeByte_cons, bind_ok, hR, hX, hB, hmap, hv, hl, hpp, bne_self_eq_false,
    Bool.or_self, rejectIf_false, hrm, vexPrefixesOk_map, allowedPrefixes_map, Bool.not_true, vreg_eq_low_bits d hd,
    vreg_eq_low_field s1 hs1]
  rfl

/-- The EVEX instruction of a length field `L'L` (R81 rows 6 to 8). -/
def evexInstr (ll : BitVec 2) (pre : List LegacyPrefix) (d s1 : VReg) (src : RM) (imm8 : BitVec 8) (mask : Option KReg)
    (z b : Bool) : Instr :=
  if ll = 0 then .vshufpsEvex128 pre d s1 src imm8 mask z b
  else if ll = 1 then .vshufpsEvex256 pre d s1 src imm8 mask z b
  else .vshufpsEvex512 pre d s1 src imm8 mask z b

/-- The EVEX prefix and its end (R71), for a length and fields that are not reserved. -/
theorem parse_evex (pre : List LegacyPrefix) {ll : BitVec 2} (d s1 : VReg) {src : RM} (imm8 : BitVec 8)
    {mask : Option KReg} {z b : Bool} (vs : List Byte) (hok : src.ok = true) (hll : ll ≠ 3)
    (hf : evexFieldsOk src mask z b = true) :
    parse (prefixBytes pre ++ evexBytes ll d s1 src mask z b ++ tailBytes d src imm8 ++ vs) =
      .ok (evexInstr ll pre d s1 src imm8 mask z b, vs) := by
  obtain ⟨hmask, hz, hb⟩ := evexFieldsOk_iff.1 hf
  have hrm := takeModRM_bytes src (d.extractLsb' 0 3) src.bitX (imm8 :: vs) hok (by rintro r rfl; rfl)
  obtain ⟨hR, hX, hB, hR', hfix, hmap⟩ := evexP0_fields (d.getLsbD 3) src.bitX src.bitB (d.getLsbD 4)
  obtain ⟨hW, hv, hone, hpp⟩ := vexByte_fields false true (s1.extractLsb' 0 4)
  obtain ⟨hp2z, hp2l, hp2b, hp2v, hp2a⟩ := evexP2_fields z b (s1.getLsbD 4) ll (aaaField mask)
  have hzero : aaaField mask = 0 → mask = none := fun h => by rw [← maskOf_aaaField hmask, h]; rfl
  simp only [List.append_assoc, evexBytes, List.cons_append, List.nil_append]
  rw [parse_prefixBytes _ _ _ (by decide), takeBody_evex]
  have hres : evexReserved (pre.map .allowed)
      (bit (!d.getLsbD 3) ++ bit (!src.bitX) ++ bit (!src.bitB) ++ bit (!d.getLsbD 4) ++ (0 : BitVec 2) ++ (1 : BitVec 2))
      (bit false ++ ~~~(s1.extractLsb' 0 4) ++ bit true ++ (0 : BitVec 2))
      (bit z ++ ll ++ bit b ++ bit (!s1.getLsbD 4) ++ aaaField mask) src = none := by
    unfold evexReserved
    rw [hW, hp2b, hp2z, hp2a, hp2l, hfix, hone, vexPrefixesOk_map, if_neg (by decide),
      if_neg (fun h => by simp [hb h.1] at h), if_neg (fun h => hz h.1 (hzero h.2)), if_neg hll, if_neg (by decide)]
    rfl
  simp only [tailBytes_append, takeEvex, takeByte_cons, bind_ok, hR, hX, hB, hR', hmap, hpp, bne_self_eq_false,
    Bool.or_self, rejectIf_false, hrm, hres, allowedPrefixes_map, hv, hp2z, hp2l, hp2b, hp2v, hp2a,
    maskOf_aaaField hmask, vreg_eq_bits, vreg_eq_field]
  rfl

/-- The legacy form, with or without a REX byte (R68). -/
theorem parse_legacy (pre : List LegacyPrefix) {rex : Bool} {d : VReg} {src : RM} (imm8 : BitVec 8) (vs : List Byte)
    (hok : src.ok = true)
    (hregs : (if rex then decide (d.toNat < 16) && src.regsBelow 16 16 else decide (d.toNat < 8) && src.regsBelow 8 8) = true) :
    parse (encode (.shufps pre rex d src imm8) ++ vs) = .ok (.shufps pre rex d src imm8, vs) := by
  cases rex with
  | true =>
    obtain ⟨hd, hsrc⟩ : d.toNat < 16 ∧ src.regsBelow 16 16 = true := by simpa using hregs
    obtain ⟨hraw, hfour, hr, hx, hb⟩ := rexByte_fields (d.getLsbD 3) src.bitX src.bitB
    simp only [encode, if_true, List.append_assoc, List.cons_append, List.nil_append]
    rw [parse_prefixBytes _ _ _ hraw, takeBody_rex hfour]
    exact takeLegacy_tailBytes (rex := some _) imm8 vs hok hd hsrc hr hx hb
  | false =>
    obtain ⟨hd, hsrc⟩ : d.toNat < 8 ∧ src.regsBelow 8 8 = true := by simpa using hregs
    obtain ⟨hX, hB⟩ := RM.bits_clear hsrc
    simp only [encode, Bool.false_eq_true, if_false, List.append_nil, List.append_assoc, List.cons_append]
    rw [parse_prefixBytes _ _ _ (by decide), takeBody_legacy]
    exact takeLegacy_tailBytes (rex := none) imm8 vs hok (by omega) (RM.regsBelow_sixteen hsrc) (vreg_bit3_clear d hd).symm hX.symm hB.symm

/-! ## Decode and encode -/

/-- A well-formed instruction is read from its bytes, and the bytes after it are left over. -/
theorem parse_encode {i : Instr} (vs : List Byte) (h : i.wellFormed = true) : parse (encode i ++ vs) = .ok (i, vs) := by
  simp only [Instr.wellFormed, Bool.and_eq_true] at h
  obtain ⟨⟨-, hok⟩, hregs⟩ := h
  cases i with
  | shufps pre rex d src imm8 => exact parse_legacy pre imm8 vs hok hregs
  | vshufpsVex128C5 pre d s1 src imm8 =>
    obtain ⟨⟨hd, hs1⟩, hsrc⟩ : (d.toNat < 16 ∧ s1.toNat < 16) ∧ src.regsBelow 8 8 = true := by simpa using hregs
    exact parse_vexC5 pre false imm8 vs hok hd hs1 hsrc
  | vshufpsVex128C4 pre d s1 src imm8 =>
    obtain ⟨⟨hd, hs1⟩, hsrc⟩ : (d.toNat < 16 ∧ s1.toNat < 16) ∧ src.regsBelow 16 16 = true := by simpa using hregs
    exact parse_vexC4 pre false imm8 vs hok hd hs1 hsrc
  | vshufpsVex256C5 pre d s1 src imm8 =>
    obtain ⟨⟨hd, hs1⟩, hsrc⟩ : (d.toNat < 16 ∧ s1.toNat < 16) ∧ src.regsBelow 8 8 = true := by simpa using hregs
    exact parse_vexC5 pre true imm8 vs hok hd hs1 hsrc
  | vshufpsVex256C4 pre d s1 src imm8 =>
    obtain ⟨⟨hd, hs1⟩, hsrc⟩ : (d.toNat < 16 ∧ s1.toNat < 16) ∧ src.regsBelow 16 16 = true := by simpa using hregs
    exact parse_vexC4 pre true imm8 vs hok hd hs1 hsrc
  | vshufpsEvex128 pre d s1 src imm8 mask z b => exact parse_evex (ll := 0) pre d s1 imm8 vs hok (by decide) hregs
  | vshufpsEvex256 pre d s1 src imm8 mask z b => exact parse_evex (ll := 1) pre d s1 imm8 vs hok (by decide) hregs
  | vshufpsEvex512 pre d s1 src imm8 mask z b => exact parse_evex (ll := 2) pre d s1 imm8 vs hok (by decide) hregs

/-- The encoding of every instruction is as long as R83 says. -/
theorem length_encode : ∀ i : Instr, (encode i).length = i.len
  | .shufps .. => Laws.EncodeLength.shufps ..
  | .vshufpsVex128C5 .. => Laws.EncodeLength.vshufpsVex128C5 ..
  | .vshufpsVex128C4 .. => Laws.EncodeLength.vshufpsVex128C4 ..
  | .vshufpsVex256C5 .. => Laws.EncodeLength.vshufpsVex256C5 ..
  | .vshufpsVex256C4 .. => Laws.EncodeLength.vshufpsVex256C4 ..
  | .vshufpsEvex128 .. => Laws.EncodeLength.vshufpsEvex128 ..
  | .vshufpsEvex256 .. => Laws.EncodeLength.vshufpsEvex256 ..
  | .vshufpsEvex512 .. => Laws.EncodeLength.vshufpsEvex512 ..

/-- A well-formed instruction is at most 15 bytes long (R83). -/
theorem Instr.wellFormed_len {i : Instr} (h : i.wellFormed = true) : i.len ≤ maxLen := by
  simp only [Instr.wellFormed, Bool.and_eq_true, decide_eq_true_eq] at h
  obtain ⟨⟨hlen, -⟩, -⟩ := h
  exact hlen

/-- Settles O42: the 15 bytes that the decoder looks at hold the whole encoding, which is parsed back. -/
theorem decodeEncode : Obligations.DecodeEncode := by
  intro i vs h
  have hlen : (encode i).length ≤ maxLen := (length_encode i).trans_le (Instr.wellFormed_len h)
  rw [decode, List.take_append, List.take_of_length_le hlen, parse_encode _ h]

end Sys2Proof
end

section
/-! SUPPORT. What an answer of the decoder says of the bytes it was read from (30_encoding.md R81 to R88): their number, their
fields and their row of the opcode table. -/

namespace Sys2Proof

-- Proofs are elaborated one after another: beside the frozen tests, elaborating these in parallel takes more threads than the
-- memory limit of the check has stacks for. No section variable is declared, so the option changes nothing else.
set_option deprecated.oldSectionVars true

/-! ## The prefixes of an answer -/

/-- Where decoding goes on after a test, the test let it. -/
theorem bind_rejectIf {β : Type} {c : Bool} {e : DecodeError} {f : Unit → Except DecodeError β} {v : β}
    (h : (rejectIf c e >>= f) = .ok v) : c = false ∧ f () = .ok v := by
  obtain ⟨u, hu, hf⟩ := bind_eq_ok h
  exact ⟨rejectIf_eq_ok hu, hf⟩

/-- A REX byte before a VEX or EVEX prefix is no allowed prefix (R87). -/
theorem vexPrefixesOk_rex (raw : List RawPrefix) : vexPrefixesOk (raw ++ [RawPrefix.rexByte]) = false := by
  simp [vexPrefixesOk, RawPrefix.legacy?]

/-- Prefix bytes with none of the forbidden ones are all allowed (R87, R88). -/
theorem vexPrefixesOk_of_not_mem {raw : List RawPrefix} (hop : raw.contains .opSize = false)
    (hlock : raw.contains .lockOrRep = false) (hrex : RawPrefix.rexByte ∉ raw) : vexPrefixesOk raw = true := by
  simp only [List.contains_eq_mem, decide_eq_false_iff_not] at hop hlock
  refine List.all_eq_true.2 fun p hp => ?_
  cases p with
  | allowed q => rfl
  | opSize => exact absurd hp hop
  | lockOrRep => exact absurd hp hlock
  | rexByte => exact absurd hp hrex

/-- An allowed prefix is none of the forbidden bytes (R87, R88). -/
theorem not_mem_of_vexPrefixesOk {raw : List RawPrefix} (h : vexPrefixesOk raw = true) {p : RawPrefix}
    (hp : p.legacy? = none) : p ∉ raw := fun hmem => by
  simpa [hp] using List.all_eq_true.1 h p hmem

/-! ## The rows of the opcode table -/

/-- Bytes match row `k` of the opcode table, counted from 1, and no other (R81). -/
def MatchesRow (k : Nat) (vs : List Byte) : Prop :=
  opcodeTable.map (fun r => r.hits vs) = (List.range 8).map fun n => n + 1 == k

theorem MatchesRow.hits_iff {k n : Nat} {vs : List Byte} {r : Row} (h : MatchesRow k vs) (hr : opcodeTable[n]? = some r) :
    r.hits vs = true ↔ n + 1 = k := by
  have hn : n < 8 := (List.getElem?_eq_some_iff.1 hr).1
  have hget := congrArg (fun l => l[n]?) h
  simp only [List.getElem?_map, hr, List.getElem?_range hn, Option.map_some, Option.some.injEq] at hget
  simp [hget]

theorem vexByte_row {p : Byte} (hpp : p.extractLsb' 0 2 = 0) :
    (p &&& 0x07 == 0x00) = (!p.getLsbD 2) ∧ (p &&& 0x07 == 0x04) = p.getLsbD 2 := by
  refine ⟨Bool.eq_iff_iff.2 ?_, Bool.eq_iff_iff.2 ?_⟩ <;>
    simp only [BitVec.eq_of_getLsbD_eq_iff, Nat.forall_lt_succ_right, beq_iff_eq] at hpp ⊢ <;> simp_all

theorem vexMapByte_row {p : Byte} (hmap : p.extractLsb' 0 5 = 1) : (p &&& 0x1F == 0x01) = true := by
  simp only [BitVec.eq_of_getLsbD_eq_iff, Nat.forall_lt_succ_right, beq_iff_eq] at hmap ⊢
  simp_all

theorem evexP0_row {p : Byte} (hmap : p.extractLsb' 0 2 = 1) (hfix : p.extractLsb' 2 2 = 0) :
    (p &&& 0x0F == 0x01) = true := by
  simp only [BitVec.eq_of_getLsbD_eq_iff, Nat.forall_lt_succ_right, beq_iff_eq] at hmap hfix ⊢
  simp_all

theorem evexP1_row {p : Byte} (hpp : p.extractLsb' 0 2 = 0) (hone : p.getLsbD 2 = true) (hW : p.getLsbD 7 = false) :
    (p &&& 0x87 == 0x04) = true := by
  simp only [BitVec.eq_of_getLsbD_eq_iff, Nat.forall_lt_succ_right, beq_iff_eq] at hpp ⊢
  simp_all

theorem evexP2_row (p : Byte) : (p &&& 0x60 == 0x00) = decide (p.extractLsb' 5 2 = 0) ∧
    (p &&& 0x60 == 0x20) = decide (p.extractLsb' 5 2 = 1) ∧ (p &&& 0x60 == 0x40) = decide (p.extractLsb' 5 2 = 2) := by
  refine ⟨Bool.eq_iff_iff.2 ?_, Bool.eq_iff_iff.2 ?_, Bool.eq_iff_iff.2 ?_⟩ <;>
    simp only [BitVec.eq_of_getLsbD_eq_iff, Nat.forall_lt_succ_right, beq_iff_eq, decide_eq_true_eq] <;> simp

theorem evexLength_cases : ∀ ll : BitVec 2, ll ≠ 3 → ll = 0 ∨ ll = 1 ∨ ll = 2 := by decide

theorem matchesRow_legacy (vs : List Byte) : MatchesRow 1 (0x0F :: 0xC6 :: vs) := rfl

theorem matchesRow_vexC5 {p : Byte} (hpp : p.extractLsb' 0 2 = 0) (vs : List Byte) :
    MatchesRow (if p.getLsbD 2 then 4 else 2) (0xC5 :: p :: 0xC6 :: vs) := by
  obtain ⟨h0, h4⟩ := vexByte_row hpp
  simp only [MatchesRow, opcodeTable, List.map_cons, List.map_nil, Row.hits, matchBytes, h0, h4]
  cases p.getLsbD 2 <;> rfl

theorem matchesRow_vexC4 {p1 p2 : Byte} (hmap : p1.extractLsb' 0 5 = 1) (hpp : p2.extractLsb' 0 2 = 0) (vs : List Byte) :
    MatchesRow (if p2.getLsbD 2 then 5 else 3) (0xC4 :: p1 :: p2 :: 0xC6 :: vs) := by
  obtain ⟨h0, h4⟩ := vexByte_row hpp
  have h1 := vexMapByte_row hmap
  simp only [MatchesRow, opcodeTable, List.map_cons, List.map_nil, Row.hits, matchBytes, h1, h0, h4]
  cases p2.getLsbD 2 <;> rfl

theorem matchesRow_evex {p0 p1 p2 : Byte} (h0 : (p0 &&& 0x0F == 0x01) = true) (h1 : (p1 &&& 0x87 == 0x04) = true)
    (hll : p2.extractLsb' 5 2 ≠ 3) (vs : List Byte) :
    MatchesRow (if p2.extractLsb' 5 2 = 0 then 6 else if p2.extractLsb' 5 2 = 1 then 7 else 8)
      (0x62 :: p0 :: p1 :: p2 :: 0xC6 :: vs) := by
  obtain ⟨r0, r1, r2⟩ := evexP2_row p2
  simp only [MatchesRow, opcodeTable, List.map_cons, List.map_nil, Row.hits, matchBytes, h0, h1, r0, r1, r2]
  obtain hl | hl | hl := evexLength_cases _ hll <;> rw [hl] <;> rfl

/-! ## The forms: what an answer says of the bytes -/

/-- What an answer says of the bytes it was read from: `bytes` are those from the opcode, VEX or EVEX prefix on, and `n` is the
number of bytes before them. -/
def ReadFrom (n : Nat) (bytes : List Byte) (i : Instr) (rest : List Byte) : Prop :=
  n + bytes.length = i.len + rest.length ∧ (i.len ≤ maxLen → i.wellFormed = true) ∧
    ∀ more, MatchesRow i.row (bytes ++ more)

theorem rex_bits_clear : (0 : Byte).getLsbD 0 = false ∧ (0 : Byte).getLsbD 1 = false ∧ (0 : Byte).getLsbD 2 = false := by
  decide

theorem vvvv_lt_sixteen : ∀ v : BitVec 4, (bit false ++ v : VReg).toNat < 16 := by decide

/-- The three tests of `Instr.wellFormed` together. -/
theorem wellFormed_tests {n : Nat} {ok fields : Bool} (hn : n ≤ maxLen) (hok : ok = true) (hfields : fields = true) :
    (decide (n ≤ maxLen) && ok && fields) = true := by simp [hn, hok, hfields]

/-- The register tests of `Instr.wellFormed`. -/
theorem register_tests {d s1 n m k : Nat} {src : RM} (hd : d < n) (hs1 : s1 < n) (hsrc : src.regsBelow m k = true) :
    (decide (d < n) && decide (s1 < n) && src.regsBelow m k) = true := by simp [hd, hs1, hsrc]

/-- The legacy form (R68, R87, R88). -/
theorem takeLegacy_eq_ok {raw : List RawPrefix} {rex : Option Byte} {vs rest : List Byte} {i : Instr}
    (h : takeLegacy raw rex vs = .ok (i, rest)) (hrex : RawPrefix.rexByte ∉ raw) :
    vexPrefixesOk raw = true ∧ ReadFrom (raw.length + if rex.isSome then 1 else 0) (0x0F :: vs) i rest := by
  obtain ⟨op, vs1, rfl, h⟩ := bind_takeByte h
  obtain ⟨hop, h⟩ := bind_rejectIf h
  obtain ⟨⟨reg, src, vs2⟩, hrm, h⟩ := bind_eq_ok h
  obtain ⟨imm8, vs3, rfl, h⟩ := bind_takeByte h
  obtain ⟨hlock, h⟩ := bind_rejectIf h
  cases h
  obtain ⟨rfl, hsize⟩ : op = 0xC6 ∧ raw.contains RawPrefix.opSize = false := by simpa using hop
  have hraw := vexPrefixesOk_of_not_mem hsize hlock hrex
  obtain ⟨hlen, hok, h16, h8⟩ := takeModRM_eq_ok hrm
  obtain ⟨hd16, hd8⟩ := vreg_low_of_bits false ((rex.getD 0).getLsbD 2) reg
  refine ⟨hraw, ?_, fun hmax => wellFormed_tests hmax hok ?_, fun more => matchesRow_legacy _⟩
  · simp only [List.length_cons, Instr.len, allowedPrefixes_length hraw, hlen]; omega
  · cases rex with
    | some v => exact Bool.and_eq_true_iff.2 ⟨decide_eq_true (hd16 rfl), h16 rfl⟩
    | none =>
      obtain ⟨hb, hx, hr⟩ := rex_bits_clear
      exact Bool.and_eq_true_iff.2 ⟨decide_eq_true (hd8 rfl hr), h8 rfl hx hb⟩

/-- The two-byte VEX prefix (R70, R87). -/
theorem takeVexC5_eq_ok {raw : List RawPrefix} {vs rest : List Byte} {i : Instr}
    (h : takeVexC5 raw vs = .ok (i, rest)) :
    vexPrefixesOk raw = true ∧ ReadFrom raw.length (0xC5 :: vs) i rest := by
  obtain ⟨p, vs0, rfl, h⟩ := bind_takeByte h
  obtain ⟨op, vs1, rfl, h⟩ := bind_takeByte (vs := vs0) h
  obtain ⟨hop, h⟩ := bind_rejectIf h
  obtain ⟨⟨reg, src, vs2⟩, hrm, h⟩ := bind_eq_ok h
  obtain ⟨imm8, vs3, rfl, h⟩ := bind_takeByte h
  obtain ⟨hnot, hi⟩ := bind_rejectIf h
  have hraw : vexPrefixesOk raw = true := by simpa using hnot
  obtain ⟨rfl, hpp⟩ : op = 0xC6 ∧ p.extractLsb' 0 2 = 0 := by simpa using hop
  obtain ⟨hlen, hok, -, h8⟩ := takeModRM_eq_ok hrm
  obtain ⟨hd, -⟩ := vreg_low_of_bits false (!p.getLsbD 7) reg
  have hregs := register_tests (hd rfl) (vvvv_lt_sixteen (~~~(p.extractLsb' 3 4))) (h8 rfl rfl rfl)
  have hlength : raw.length + (0xC5 :: p :: 0xC6 :: vs1).length =
      (allowedPrefixes raw).length + 2 + 1 + src.len + 1 + vs3.length := by
    simp only [List.length_cons, allowedPrefixes_length hraw, hlen]; omega
  have hrow := matchesRow_vexC5 hpp
  cases hi
  refine ⟨hraw, ?_⟩
  revert hrow
  cases p.getLsbD 2 <;>
    exact fun hrow => ⟨hlength, fun hmax => wellFormed_tests hmax hok hregs, fun more => hrow _⟩

/-- The three-byte VEX prefix (R69, R87). -/
theorem takeVexC4_eq_ok {raw : List RawPrefix} {vs rest : List Byte} {i : Instr}
    (h : takeVexC4 raw vs = .ok (i, rest)) :
    vexPrefixesOk raw = true ∧ ReadFrom raw.length (0xC4 :: vs) i rest := by
  obtain ⟨p1, vs0, rfl, h⟩ := bind_takeByte h
  obtain ⟨p2, vs0, rfl, h⟩ := bind_takeByte (vs := vs0) h
  obtain ⟨op, vs1, rfl, h⟩ := bind_takeByte (vs := vs0) h
  obtain ⟨hop, h⟩ := bind_rejectIf h
  obtain ⟨⟨reg, src, vs2⟩, hrm, h⟩ := bind_eq_ok h
  obtain ⟨imm8, vs3, rfl, h⟩ := bind_takeByte h
  obtain ⟨hnot, hi⟩ := bind_rejectIf h
  have hraw : vexPrefixesOk raw = true := by simpa using hnot
  obtain ⟨⟨rfl, hmap⟩, hpp⟩ : (op = 0xC6 ∧ p1.extractLsb' 0 5 = 1) ∧ p2.extractLsb' 0 2 = 0 := by simpa using hop
  obtain ⟨hlen, hok, h16, -⟩ := takeModRM_eq_ok hrm
  obtain ⟨hd, -⟩ := vreg_low_of_bits false (!p1.getLsbD 7) reg
  have hregs := register_tests (hd rfl) (vvvv_lt_sixteen (~~~(p2.extractLsb' 3 4))) (h16 rfl)
  have hlength : raw.length + (0xC4 :: p1 :: p2 :: 0xC6 :: vs1).length =
      (allowedPrefixes raw).length + 3 + 1 + src.len + 1 + vs3.length := by
    simp only [List.length_cons, allowedPrefixes_length hraw, hlen]; omega
  have hrow := matchesRow_vexC4 hmap hpp
  cases hi
  refine ⟨hraw, ?_⟩
  revert hrow
  cases p2.getLsbD 2 <;>
    exact fun hrow => ⟨hlength, fun hmax => wellFormed_tests hmax hok hregs, fun more => hrow _⟩

/-- An EVEX prefix is no reserved encoding exactly where none of the conditions of R87 holds. -/
theorem evexReserved_eq_none {raw : List RawPrefix} {p0 p1 p2 : Byte} {src : RM} :
    evexReserved raw p0 p1 p2 src = none ↔
      p1.getLsbD 7 = false ∧ (p2.getLsbD 4 = true → src.isMem = true) ∧
      (p2.getLsbD 7 = true → p2.extractLsb' 0 3 ≠ 0) ∧ p2.extractLsb' 5 2 ≠ 3 ∧
      p0.extractLsb' 2 2 = 0 ∧ p1.getLsbD 2 = true ∧ vexPrefixesOk raw = true := by
  unfold evexReserved
  constructor
  · intro h
    split_ifs at h with h1 h2 h3 h4 h5 h6
    obtain ⟨hfix, hone⟩ := not_or.1 h5
    exact ⟨by simpa using h1, fun hb => by simpa [hb] using h2, fun hz h0 => h3 ⟨hz, h0⟩, h4, not_not.1 hfix,
      by simpa using hone, by simpa using h6⟩
  · rintro ⟨h1, h2, h3, h4, h5, h6, h7⟩
    rw [h1, h5, h6, h7, if_neg (by decide), if_neg (fun h => by simp [h2 h.1] at h), if_neg (fun h => h3 h.1 h.2),
      if_neg h4, if_neg (by decide)]
    rfl

/-- The mask field names no K[0], and none exactly where it is 000 (R74). -/
theorem maskOf_spec (aaa : BitVec 3) : maskOf aaa ≠ some 0 ∧ (maskOf aaa = none → aaa = 0) := by
  unfold maskOf
  split_ifs with h
  · exact ⟨nofun, fun _ => h⟩
  · exact ⟨fun hs => h (Option.some.inj hs), nofun⟩

/-- The EVEX prefix (R71, R87). -/
theorem takeEvex_eq_ok {raw : List RawPrefix} {vs rest : List Byte} {i : Instr}
    (h : takeEvex raw vs = .ok (i, rest)) :
    vexPrefixesOk raw = true ∧ ReadFrom raw.length (0x62 :: vs) i rest := by
  obtain ⟨p0, vs0, rfl, h⟩ := bind_takeByte h
  obtain ⟨p1, vs0, rfl, h⟩ := bind_takeByte (vs := vs0) h
  obtain ⟨p2, vs0, rfl, h⟩ := bind_takeByte (vs := vs0) h
  obtain ⟨op, vs1, rfl, h⟩ := bind_takeByte (vs := vs0) h
  obtain ⟨hop, h⟩ := bind_rejectIf h
  obtain ⟨⟨reg, src, vs2⟩, hrm, h⟩ := bind_eq_ok h
  obtain ⟨imm8, vs3, rfl, hi⟩ := bind_takeByte h
  dsimp only at hi
  obtain ⟨⟨rfl, hmap⟩, hpp⟩ : (op = 0xC6 ∧ p0.extractLsb' 0 2 = 1) ∧ p1.extractLsb' 0 2 = 0 := by simpa using hop
  cases hres : evexReserved raw p0 p1 p2 src with
  | some r => rw [hres] at hi; cases hi
  | none =>
    rw [hres] at hi
    obtain ⟨hW, hb, hz, hll, hfix, hone, hraw⟩ := evexReserved_eq_none.1 hres
    obtain ⟨hlen, hok, -, -⟩ := takeModRM_eq_ok hrm
    obtain ⟨hk0, hnone⟩ := maskOf_spec (p2.extractLsb' 0 3)
    have hfields := evexFieldsOk_iff.2 ⟨hk0, fun h1 h2 => hz h1 (hnone h2), hb⟩
    have hlength : raw.length + (0x62 :: p0 :: p1 :: p2 :: 0xC6 :: vs1).length =
        (allowedPrefixes raw).length + 4 + 1 + src.len + 1 + vs3.length := by
      simp only [List.length_cons, allowedPrefixes_length hraw, hlen]; omega
    have hrow := matchesRow_evex (evexP0_row hmap hfix) (evexP1_row hpp hone hW) hll
    cases hi
    refine ⟨hraw, ?_⟩
    obtain hl | hl | hl := evexLength_cases _ hll <;> rw [hl] at hrow ⊢ <;>
      exact ⟨hlength, fun hmax => wellFormed_tests hmax hok hfields, fun more => hrow _⟩

/-! ## The instruction after its prefixes -/

/-- A REX byte is set aside from what `fixedBytes` keeps, any other byte is not. -/
theorem fixedBytes_of_rest {vs bytes : List Byte} {v : Byte} (h : (takePrefixes vs).2 = v :: bytes) :
    Machine.fixedBytes vs = if v.extractLsb' 4 4 = 4 then bytes else v :: bytes := by
  rw [Machine.fixedBytes, h]

/-- What an answer after the prefixes says: they are all allowed, and the instruction was read from the bytes that `fixedBytes`
keeps, whatever follows. -/
theorem takeBody_eq_ok {raw : List RawPrefix} {vs rest : List Byte} {i : Instr}
    (h : takeBody raw vs = .ok (i, rest)) (hrex : RawPrefix.rexByte ∉ raw) :
    vexPrefixesOk raw = true ∧ ∃ n bytes, raw.length + vs.length = n + bytes.length ∧ ReadFrom n bytes i rest ∧
      ∀ ws more, (takePrefixes ws).2 = vs ++ more → Machine.fixedBytes ws = bytes ++ more := by
  have key : ∀ {v : Byte} {tl : List Byte}, v.extractLsb' 4 4 ≠ 4 →
      vexPrefixesOk raw = true ∧ ReadFrom raw.length (v :: tl) i rest →
      vexPrefixesOk raw = true ∧ ∃ n bytes, raw.length + (v :: tl).length = n + bytes.length ∧ ReadFrom n bytes i rest ∧
        ∀ ws more, (takePrefixes ws).2 = v :: tl ++ more → Machine.fixedBytes ws = bytes ++ more :=
    fun hv ⟨hraw, hread⟩ => ⟨hraw, _, _, rfl, hread, fun ws more hws => by rw [fixedBytes_of_rest hws, if_neg hv]; rfl⟩
  have bad : vexPrefixesOk (raw ++ [RawPrefix.rexByte]) ≠ true := by simp [vexPrefixesOk_rex]
  obtain ⟨v, tl, rfl, hv⟩ := bind_takeByte h
  dsimp only at hv
  by_cases h62 : v = 0x62
  · subst h62
    exact key (by decide) (takeEvex_eq_ok hv)
  by_cases hC4 : v = 0xC4
  · subst hC4
    exact key (by decide) (takeVexC4_eq_ok hv)
  by_cases hC5 : v = 0xC5
  · subst hC5
    exact key (by decide) (takeVexC5_eq_ok hv)
  by_cases h0F : v = 0x0F
  · subst h0F
    exact key (by decide) (takeLegacy_eq_ok hv hrex)
  rw [if_neg h62, if_neg hC4, if_neg hC5, if_neg h0F] at hv
  by_cases h4 : v.extractLsb' 4 4 = 4
  · rw [if_pos h4] at hv
    obtain ⟨w, tl, rfl, hw⟩ := bind_takeByte hv
    dsimp only at hw
    by_cases k62 : w = 0x62
    · exact absurd (takeEvex_eq_ok (by rwa [if_pos k62] at hw)).1 bad
    by_cases kC4 : w = 0xC4
    · exact absurd (takeVexC4_eq_ok (by rwa [if_neg k62, if_pos kC4] at hw)).1 bad
    by_cases kC5 : w = 0xC5
    · exact absurd (takeVexC5_eq_ok (by rwa [if_neg k62, if_neg kC4, if_pos kC5] at hw)).1 bad
    rw [if_neg k62, if_neg kC4, if_neg kC5] at hw
    by_cases k0F : w = 0x0F
    · rw [if_pos k0F] at hw
      obtain ⟨hraw, hread⟩ := takeLegacy_eq_ok hw hrex
      subst k0F
      refine ⟨hraw, _, _, ?_, hread, fun ws more hws => by rw [fixedBytes_of_rest hws, if_pos h4]; rfl⟩
      simp only [List.length_cons, Option.isSome_some, if_true]; omega
    · rw [if_neg k0F] at hw; cases hw
  · rw [if_neg h4] at hv; cases hv

/-- What an answer of `parse` says. -/
theorem parse_eq_ok {vs rest : List Byte} {i : Instr} (h : parse vs = .ok (i, rest)) :
    vexPrefixesOk (takePrefixes vs).1 = true ∧ ∃ n bytes, vs.length = n + bytes.length ∧ ReadFrom n bytes i rest ∧
      ∀ ws more, (takePrefixes ws).2 = (takePrefixes vs).2 ++ more → Machine.fixedBytes ws = bytes ++ more := by
  rw [takePrefixes_length vs]
  exact takeBody_eq_ok h (takePrefixes_noRex vs)

/-- The decoder's answer is that of `parse` on at most 15 bytes (R83). -/
theorem decode_eq_ok {vs : List Byte} {i : Instr} :
    decode vs = .ok i ↔ ∃ rest, parse (vs.take maxLen) = .ok (i, rest) := by
  unfold decode
  split
  · next i' rest h => simp [h]
  · next h => simp [h]
  · next e he h => simp [h]

/-- Where bytes are parsed, some are left after the prefixes. -/
theorem takePrefixes_ne_nil {vs rest : List Byte} {i : Instr} (h : parse vs = .ok (i, rest)) : (takePrefixes vs).2 ≠ [] :=
  fun hnil => by
    rw [parse, hnil] at h
    cases h

/-! ## The obligations -/

/-- Settles O44: the bytes before and from the opcode, VEX or EVEX prefix on are accounted for. -/
theorem lengthIsBytesConsumed : Obligations.LengthIsBytesConsumed := by
  intro vs i rest h
  obtain ⟨-, n, bytes, hlen, ⟨hread, -, -⟩, -⟩ := parse_eq_ok h
  exact hlen.trans hread

/-- Settles O43: the fields read are encodable, and the bytes looked at are at most 15. -/
theorem decodedIsWellFormed : Obligations.DecodedIsWellFormed := by
  intro vs i h
  obtain ⟨rest, h⟩ := decode_eq_ok.1 h
  have hlen : (vs.take maxLen).length = i.len + rest.length := lengthIsBytesConsumed _ _ _ h
  have hmax : (vs.take maxLen).length ≤ maxLen := List.length_take_le ..
  obtain ⟨-, n, bytes, -, ⟨-, hwf, -⟩, -⟩ := parse_eq_ok h
  exact hwf (by omega)

/-- Settles O45: the bytes that `fixedBytes` keeps are those the instruction was read from. -/
theorem decodedMatchesItsRow : Obligations.DecodedMatchesItsRow := by
  intro vs i h n r hr
  obtain ⟨rest, h⟩ := decode_eq_ok.1 h
  obtain ⟨-, more, hmore⟩ := takePrefixes_take vs maxLen (takePrefixes_ne_nil h)
  obtain ⟨-, n, bytes, -, ⟨-, -, hrow⟩, hfixed⟩ := parse_eq_ok h
  rw [hfixed vs more hmore]
  exact (hrow more).hits_iff hr

/-- Settles O49: the prefixes of an answer are all allowed. -/
theorem forbiddenPrefixesRejected : Obligations.ForbiddenPrefixesRejected := by
  intro vs hmem i h
  obtain ⟨rest, h⟩ := decode_eq_ok.1 h
  have hraw := (parse_eq_ok h).1
  rw [← (takePrefixes_take vs maxLen (takePrefixes_ne_nil h)).1] at hraw
  obtain hop | hlock := hmem
  · exact not_mem_of_vexPrefixesOk hraw rfl hop
  · exact not_mem_of_vexPrefixesOk hraw rfl hlock

end Sys2Proof
end

section
/-! SUPPORT. The spellings of a VEX prefix, the reserved EVEX encodings over a register, and what the fetch makes of bytes
(30_encoding.md R70, R84, R87; 20_memory.md R52; 70_reset_and_hazards.md R183). -/

namespace Sys2Proof

-- Proofs are elaborated one after another: beside the frozen tests, elaborating these in parallel takes more threads than the
-- memory limit of the check has stacks for. No section variable is declared, so the option changes nothing else.
set_option deprecated.oldSectionVars true

/-! ## VEX prefixes -/

/-- Without a legacy prefix the decoder starts with the first byte. -/
theorem parse_cons (v : Byte) (vs : List Byte) (h : rawPrefixOf v = none) : parse (v :: vs) = takeBody [] (v :: vs) := by
  simpa [prefixBytes] using parse_prefixBytes [] v vs h

/-- The fields of C4's two bytes that spell C5's byte `p` (R70). -/
theorem vexC5_spelling (p : Byte) :
    let p1 : Byte := p.extractLsb' 7 1 ++ 0x61#7
    let p2 : Byte := 0#1 ++ p.extractLsb' 0 7
    p1.extractLsb' 0 5 = 1 ∧ p1.getLsbD 6 = true ∧ p1.getLsbD 5 = true ∧ p1.getLsbD 7 = p.getLsbD 7 ∧
      p2.extractLsb' 0 2 = p.extractLsb' 0 2 ∧ p2.extractLsb' 3 4 = p.extractLsb' 3 4 ∧ p2.getLsbD 2 = p.getLsbD 2 := by
  refine ⟨?_, ?_, ?_, ?_, ?_, ?_, ?_⟩
  · rw [Machine.extract_append_low _ _ _ _ (by decide)]; rfl
  · rw [BitVec.getLsbD_append]; rfl
  · rw [BitVec.getLsbD_append]; rfl
  · rw [BitVec.getLsbD_append]; simp
  · rw [Machine.extract_append_low _ _ _ _ (by decide), Machine.extract_extract _ _ _ _ _ (by decide)]
  · rw [Machine.extract_append_low _ _ _ _ (by decide), Machine.extract_extract _ _ _ _ _ (by decide)]
  · rw [BitVec.getLsbD_append]; simp

/-- Settles O46: the two spellings have the same fields, and the two forms of one length the same record. -/
theorem vexPrefixLengthsAgree : Obligations.VexPrefixLengthsAgree := by
  intro p vs
  obtain ⟨hmap, hX, hB, hR, hpp, hvvvv, hl⟩ := vexC5_spelling p
  rw [parse_cons _ _ (by decide), parse_cons _ _ (by decide), takeBody_vexC5, takeBody_vexC4]
  simp only [takeVexC5, takeVexC4, takeByte_cons, bind_ok, hmap, hX, hB, hR, hpp, hvvvv, hl, bne_self_eq_false,
    Bool.or_false, Bool.not_true]
  cases takeByte vs with
  | error e => rfl
  | ok x =>
    obtain ⟨op, vs⟩ := x
    simp only [bind_ok]
    cases rejectIf (op != 0xC6 || p.extractLsb' 0 2 != 0) .otherInstruction with
    | error e => rfl
    | ok u =>
      simp only [bind_ok]
      cases takeModRM false false false vs with
      | error e => rfl
      | ok x =>
        obtain ⟨reg, src, vs⟩ := x
        simp only [bind_ok]
        cases takeByte vs with
        | error e => rfl
        | ok x => cases p.getLsbD 2 <;> rfl

/-- The fields of C4's third byte do not change with its bit 7 (R84). -/
theorem vexW_fields (p : Byte) : (p ^^^ 0x80).extractLsb' 0 2 = p.extractLsb' 0 2 ∧
    (p ^^^ 0x80).extractLsb' 3 4 = p.extractLsb' 3 4 ∧ (p ^^^ 0x80).getLsbD 2 = p.getLsbD 2 := by
  simp only [BitVec.eq_of_getLsbD_eq_iff, Nat.forall_lt_succ_right]
  simp

/-- Settles O47: no field that the decoder reads from the third byte changes. -/
theorem vexWIgnored : Obligations.VexWIgnored := by
  intro p1 p2 vs
  obtain ⟨hpp, hvvvv, hl⟩ := vexW_fields p2
  rw [parse_cons _ _ (by decide), parse_cons _ _ (by decide), takeBody_vexC4, takeBody_vexC4]
  simp only [takeVexC4, takeByte_cons, bind_ok, hpp, hvvvv, hl]

/-! ## Reserved EVEX encodings -/

/-- A register operand is read from the ModRM byte alone. -/
theorem takeModRM_register (x b xReg : Bool) {m : Byte} (h : m.extractLsb' 6 2 = 3) (vs : List Byte) :
    takeModRM x b xReg (m :: vs) = .ok (m.extractLsb' 3 3, .reg (bit xReg ++ bit b ++ m.extractLsb' 0 3), vs) :=
  if_pos h

/-- An EVEX encoding of this spec over a register: reserved for the reason that `evexReserved` gives, else an instruction. -/
theorem decode_evex_register {p0 p1 p2 m : Byte} (imm8 : Byte) (vs : List Byte) (hmap : p0.extractLsb' 0 2 = 1)
    (hpp : p1.extractLsb' 0 2 = 0) (hm : m.extractLsb' 6 2 = 3) :
    ∃ r, (∀ e, evexReserved [] p0 p1 p2 (.reg r) = some e →
        decode (0x62 :: p0 :: p1 :: p2 :: 0xC6 :: m :: imm8 :: vs) = .error (.reserved e)) ∧
      (evexReserved [] p0 p1 p2 (.reg r) = none →
        ∃ i, decode (0x62 :: p0 :: p1 :: p2 :: 0xC6 :: m :: imm8 :: vs) = .ok i) := by
  have htake : (0x62 :: p0 :: p1 :: p2 :: 0xC6 :: m :: imm8 :: vs).take maxLen =
    0x62 :: p0 :: p1 :: p2 :: 0xC6 :: m :: imm8 :: vs.take 8 := rfl
  refine ⟨bit (!p0.getLsbD 6) ++ bit (!p0.getLsbD 5) ++ m.extractLsb' 0 3, fun e he => ?_, fun he => ?_⟩
  all_goals
    rw [decode, htake, parse_cons _ _ (by decide), takeBody_evex]
    simp only [takeEvex, takeByte_cons, bind_ok, hmap, hpp, bne_self_eq_false, Bool.or_false, rejectIf_false,
      takeModRM_register _ _ _ hm, he]
  exact ⟨_, rfl⟩

/-- The conditions of R87 for a register operand, the prefixes apart. -/
theorem evexReserved_register {p0 p1 p2 : Byte} {r : VReg} :
    evexReserved [] p0 p1 p2 (.reg r) = none ↔
      ¬ (p1.getLsbD 7 = true ∨ p2.getLsbD 4 = true ∨ (p2.getLsbD 7 = true ∧ p2.extractLsb' 0 3 = 0) ∨
        p2.extractLsb' 5 2 = 3 ∨ p0.extractLsb' 2 2 ≠ 0 ∨ p1.getLsbD 2 = false) := by
  rw [evexReserved_eq_none]
  simp only [RM.isMem, not_or, not_and, Bool.not_eq_true, Bool.not_eq_false, not_not, ne_eq, Bool.false_eq_true, imp_false,
    vexPrefixesOk, List.all_nil, and_true]

/-- Settles O48: the decoder's answer follows `evexReserved`, which is `none` exactly where no condition holds. -/
theorem evexReservedEncodings : Obligations.EvexReservedEncodings := by
  intro p0 p1 p2 m imm8 vs hmap hpp hm
  obtain ⟨r, hreserved, hinstr⟩ := decode_evex_register imm8 vs hmap hpp hm
  cases he : evexReserved [] p0 p1 p2 (.reg r) with
  | none =>
    obtain ⟨i, hi⟩ := hinstr he
    have hnot := evexReserved_register.1 he
    rw [hi]
    exact ⟨⟨fun ⟨_, h⟩ => (nomatch h), fun h => absurd h hnot⟩, ⟨fun _ => hnot, fun _ => ⟨i, rfl⟩⟩⟩
  | some e =>
    have hcond := not_not.1 fun h => Option.some_ne_none e (he.symm.trans (evexReserved_register.2 h))
    rw [hreserved e he]
    exact ⟨⟨fun _ => hcond, fun _ => ⟨e, rfl⟩⟩, ⟨fun ⟨_, h⟩ => (nomatch h), fun h => absurd hcond h⟩⟩

/-! ## Words and fetched bytes -/

/-- Settles O50: each word is decoded. -/
theorem sampleWordsDecode : Obligations.SampleWordsDecode := by
  unfold Obligations.SampleWordsDecode
  decide

end Sys2Proof

namespace Sys2Proof.Machine

-- Proofs are elaborated one after another: beside the frozen tests, elaborating these in parallel takes more threads than the
-- memory limit of the check has stacks for. No section variable is declared, so the option changes nothing else.
set_option deprecated.oldSectionVars true

/-- In 64-bit mode text that stands at `pc` is fetched as it decodes (20_memory.md R52). -/
theorem fetch_eq_decode {s : State} (h64 : s.cfg.mode64 = true) (hne : textBytes s.text s.pc.toNat maxLen ≠ []) :
    fetch s = (decode (textBytes s.text s.pc.toNat maxLen)).mapError decodeStop := by
  unfold fetch
  split
  · next h => exact absurd h hne
  · rw [h64]
    cases decode (textBytes s.text s.pc.toNat maxLen) <;> rfl

/-- No bytes decode to a truncated instruction only. -/
theorem decode_nil : decode [] = .error .truncated := rfl

/-- Settles O51: the bytes that decode are not empty, so they are the ones fetched. -/
theorem stepRunsDecoded : Obligations.StepRunsDecoded := by
  intro s i h64 hdec
  have hne : textBytes s.text s.pc.toNat maxLen ≠ [] := fun h => by rw [h, decode_nil] at hdec; cases hdec
  rw [step, fetch_eq_decode h64 hne, hdec]
  rfl

/-- Settles O53: a reserved encoding is fetched as InvalidOpcode. -/
theorem reservedEncodingFaults : Obligations.ReservedEncodingFaults := by
  intro s r h64 hdec
  have hne : textBytes s.text s.pc.toNat maxLen ≠ [] := fun h => by rw [h, decode_nil] at hdec; cases hdec
  rw [step, fetch_eq_decode h64 hne, hdec]
  rfl

/-- Settles O54: the fetch finds no byte, or does not decode the one it finds. -/
theorem endOfTextAndMode32Refused : Obligations.EndOfTextAndMode32Refused := by
  refine fun s => ⟨fun hnone => ?_, fun hsome h32 => ?_⟩
  · have hfetch : fetch s = refuse .endOfText := by simp [fetch, textBytes, maxLen, hnone]
    rw [step, hfetch]
    rfl
  · obtain ⟨v, hv⟩ := Option.ne_none_iff_exists'.1 hsome
    have hfetch : fetch s = refuse .mode32Decode := by simp [fetch, textBytes, maxLen, hv, h32]
    rw [step, hfetch]
    rfl

/-- The text from an address on starts with the bytes that stand there. -/
theorem textBytes_of_holds {m : Memory} {vs : List Byte} {a n : Nat} (hn : vs.length ≤ n)
    (h : ∀ k, (hk : k < vs.length) → Memory.read m (a + k) = some vs[k]) :
    ∃ more, textBytes m a n = vs ++ more := by
  induction vs generalizing a n with
  | nil => exact ⟨_, rfl⟩
  | cons v vs ih =>
    cases n with
    | zero => simp at hn
    | succ n =>
      have hv : Memory.read m a = some v := h 0 (by simp)
      obtain ⟨more, hmore⟩ := ih (a := a + 1) (n := n) (by simpa using hn) fun k hk => by
        have := h (k + 1) (by simpa using hk)
        rwa [← Nat.add_assoc, Nat.add_right_comm, List.getElem_cons_succ] at this
      exact ⟨more, by rw [textBytes, hv, hmore]; rfl⟩

/-- Settles O52: at most 15 bytes of encoding stand first in the text at `pc`, and decode to the instruction. -/
theorem stepRunsEncoded : Obligations.StepRunsEncoded := by
  intro s i h64 hwf htext
  obtain ⟨more, hmore⟩ := textBytes_of_holds ((length_encode i).trans_le (Instr.wellFormed_len hwf)) htext
  exact stepRunsDecoded s i h64 (by rw [hmore]; exact decodeEncode i more hwf)

end Sys2Proof.Machine
end

section
/-! SUPPORT. What every completing step keeps, and what a completed instruction leaves (10_state.md R22, R28, R34). -/

namespace Sys2Proof.Machine

-- Proofs are elaborated one after another: beside the frozen tests, elaborating these in parallel takes more threads than the
-- memory limit of the check has stacks for. No section variable is declared, so the option changes nothing else.
set_option deprecated.oldSectionVars true

/-! ## The invariant -/

/-- The new value of a destination has no bit from MAXVL up, where the old one has none (10_state.md R20). -/
theorem low_newDest {i : Instr} {s : State} (b : Vec)
    (hold : low s.cfg.maxvl.bits (s.readZmm i.record.dest) = s.readZmm i.record.dest) :
    low s.cfg.maxvl.bits (newDest i s b) = newDest i s b := by
  unfold newDest
  dsimp only
  split_ifs with hlegacy hevex
  · have hkl : 4 ≤ s.cfg.maxvl.kl := by cases s.cfg.maxvl <;> decide
    refine low_eq_self _ _ fun e hk _ => ?_
    rw [elem_writeXmm, if_neg (by omega), ← hold, elem_low, if_neg (Nat.not_lt.2 hk)]
  · exact low_low ..
  · exact low_low ..

/-- The destination of an instruction that completes is a register that is there (10_state.md R23). -/
theorem Ready.dest_lt_nvec {i : Instr} {s : State} (h : Ready i s) : i.record.dest.toNat < s.cfg.nvec := by
  obtain ⟨⟨hreserved, -⟩, -, -⟩ := h
  obtain ⟨hdest, -⟩ := reservedCombination_eq_false.1 hreserved
  exact hdest.trans_le (Nat.min_le_left ..)

/-- `pc + len` does not wrap where it stays below the top of an address space of at most 64 bits (R28, log 16). -/
theorem toNat_add_len {i : Instr} {s : State} (haw : s.cfg.aw ≤ 64) (h : TextBelowTop i s) :
    (s.pc + BitVec.ofNat 64 i.len).toNat = s.pc.toNat + i.len := by
  have htop : s.pc.toNat + i.len < 2 ^ 64 := h.trans_le (Nat.pow_le_pow_right (by decide) haw)
  rw [BitVec.toNat_add, BitVec.toNat_ofNat]
  omega

/-- The bound on AW that the configuration meets (log 16). -/
theorem aw_le_of_wf {c : Config} (h : c.wf = true) : c.aw ≤ 64 := by
  simp only [Config.wf, Bool.and_eq_true, decide_eq_true_eq] at h
  obtain ⟨⟨⟨⟨⟨-, haw⟩, -⟩, -⟩, -⟩, -⟩ := h
  exact haw

/-- Completing an instruction keeps the invariant: it writes one register that is there, and `pc`. -/
theorem MachineInv.after {i : Instr} {s : State} (hinv : MachineInv s) (hready : Ready i s) (b : Vec) :
    MachineInv (s.after i i.record.dest (newDest i s b)) where
  cfg := hinv.cfg
  mem := hinv.mem
  text := hinv.text
  zmm n := by
    rw [readZmm_after, after_cfg]
    split_ifs with hn
    · exact low_newDest b (hinv.zmm _)
    · exact hinv.zmm n
  zmmAbsent n hn := by
    have hne : n ≠ i.record.dest := by
      rintro rfl
      exact absurd hready.dest_lt_nvec (Nat.not_lt.2 hn)
    rw [readZmm_after, if_neg hne]
    exact hinv.zmmAbsent n hn
  k := hinv.k
  kAbsent := hinv.kAbsent
  pc := by
    obtain ⟨-, -, htop⟩ := hready
    rw [after_pc, after_cfg, toNat_add_len (aw_le_of_wf hinv.cfg) htop]
    exact htop

/-- Settles O55: a completing step runs one instruction whose premises hold. -/
theorem stepKeepsInv : Obligations.StepKeepsInv := by
  intro s t hinv h
  obtain ⟨i, b, -, hready, -, rfl⟩ := step_next_eq_after h
  exact hinv.after hready b

/-- Settles O56: every register of the reset state is zero, and its memories are empty. -/
theorem resetMeetsInv : Obligations.ResetMeetsInv where
  cfg := by decide
  mem := ⟨reset_wf.1, nofun⟩
  text := ⟨reset_wf.2, nofun⟩
  zmm n := by
    have hzero : State.reset.readZmm n = 0 := Vector.getElem_replicate _
    rw [hzero, low]; simp
  zmmAbsent n _ := Vector.getElem_replicate _
  k n := by
    have hzero : State.reset.readK n = 0 := Vector.getElem_replicate _
    rw [hzero]; decide
  kAbsent n _ := Vector.getElem_replicate _
  pc := by decide

/-! ## Frames -/

/-- Settles O29: the next state is the old one but for one vector register and `pc`. -/
theorem completedFormFrame : Obligations.CompletedFormFrame := by
  intro i s t h
  obtain ⟨-, b, -, rfl⟩ := exec_eq_next.1 h
  refine ⟨fun n hn => ?_, fun _ => rfl, fun _ => rfl, fun g => by cases g <;> rfl, ⟨rfl, rfl⟩, fun _ => rfl, fun _ => rfl,
    rfl, rfl⟩
  rw [readZmm_after, if_neg hn]

/-- Settles O34: a step that completes is one instruction that completed. -/
theorem stepKeepsParameters : Obligations.StepKeepsParameters := by
  intro s t h
  obtain ⟨i, b, -, -, -, rfl⟩ := step_next_eq_after h
  exact ⟨rfl, rfl, rfl, rfl, rfl, rfl, rfl, rfl⟩

/-! ## The program counter -/

/-- Every instruction is at least four bytes long: `0F` or a prefix, the opcode byte, ModRM and imm8 (R83). -/
theorem four_le_len (i : Instr) : 4 ≤ i.len := by
  have hrm : ∀ src : RM, 1 ≤ src.len := fun src => by cases src <;> simp [RM.len]
  have hsrc := hrm i.record.src2
  cases i <;> simp only [Instr.len, Instr.record] at hsrc ⊢ <;> omega

/-- What is fetched is what the text at `pc` decodes to (20_memory.md R52). -/
theorem decode_of_fetch {s : State} {i : Instr} (h : fetch s = .ok i) :
    decode (textBytes s.text s.pc.toNat maxLen) = .ok i := by
  have hne : textBytes s.text s.pc.toNat maxLen ≠ [] := fun hnil => by simp [fetch, hnil, refuse] at h
  cases h64 : s.cfg.mode64 with
  | false =>
    unfold fetch at h
    split at h
    · cases h
    · rw [h64] at h; cases h
  | true =>
    rw [fetch_eq_decode h64 hne] at h
    cases hd : decode (textBytes s.text s.pc.toNat maxLen) with
    | error e => rw [hd] at h; cases h
    | ok j => rw [hd] at h; exact congrArg _ (Except.ok.inj h)

/-- A fetched instruction is at most 15 bytes long (30_encoding.md R83). -/
theorem len_le_of_fetch {s : State} {i : Instr} (h : fetch s = .ok i) : i.len ≤ 15 :=
  Instr.wellFormed_len (decodedIsWellFormed _ _ (decode_of_fetch h))

/-- Settles O31: the sum that is written to `pc` is below the top, so it does not wrap. -/
theorem stepAdvancesPc : Obligations.StepAdvancesPc := by
  intro s t haw h
  obtain ⟨i, b, hfetch, ⟨-, -, htop⟩, -, rfl⟩ := step_next_eq_after h
  have hpc := toNat_add_len haw htop
  refine ⟨i, hfetch, hpc, ?_, four_le_len i, len_le_of_fetch hfetch⟩
  rw [after_pc, hpc]
  exact htop

end Sys2Proof.Machine
end

section
/-! SUPPORT. How an instruction stops: the faults of R153's table in its order, and the refusals (60_exceptions.md R153 to R161,
R172). -/

namespace Sys2Proof.Machine

-- Proofs are elaborated one after another: beside the frozen tests, elaborating these in parallel takes more threads than the
-- memory limit of the check has stacks for. No section variable is declared, so the option changes nothing else.
set_option deprecated.oldSectionVars true

/-! ## The checks before an operand is read -/

theorem not_formEnabled_iff {i : Instr} {s : State} :
    ¬ FormEnabled i s ↔ reservedCombination s.cfg i = true ∨ enabled s.cfg.features i.form = false := by
  unfold FormEnabled
  cases reservedCombination s.cfg i <;> cases enabled s.cfg.features i.form <;> simp

/-- An instruction that is none of this mode, or whose form is not enabled, raises InvalidOpcode (R153 row 1). -/
theorem exec_of_not_formEnabled {i : Instr} {s : State} (h : ¬ FormEnabled i s) : exec i s = .fault .invalidOpcode :=
  exec_eq_fault.2 (.inl (preflight_eq_error.2 (.inl ⟨h, rfl⟩)))

theorem exec_of_reservedCombination {i : Instr} {s : State} (h : reservedCombination s.cfg i = true) :
    exec i s = .fault .invalidOpcode :=
  exec_of_not_formEnabled (not_formEnabled_iff.2 (.inl h))

/-- Settles O39: the checks end at EnvFault's fault. -/
theorem envFaultIsRaised : Obligations.EnvFaultIsRaised := fun _ _ e hform henv =>
  exec_eq_fault.2 (.inl (preflight_eq_error.2 (.inr ⟨hform, e, henv, rfl⟩)))

/-- Settles O36: the flag is one of those that `enabled` asks for. -/
theorem absentFeatureFaults : Obligations.AbsentFeatureFaults := by
  intro i s habsent
  refine exec_of_not_formEnabled (not_formEnabled_iff.2 (.inr ?_))
  cases i with
  | vshufpsEvex128 | vshufpsEvex256 => exact Bool.and_eq_false_iff.2 habsent
  | shufps | vshufpsVex128C5 | vshufpsVex128C4 | vshufpsVex256C5 | vshufpsVex256C4 | vshufpsEvex512 => exact habsent

/-- An EVEX record with a reserved combination of fields is no instruction (R87, R134). -/
theorem evexFieldsOk_of_not_reserved {i : Instr} {s : State} (h : reservedCombination s.cfg i = false) :
    evexFieldsOk i.record.src2 i.record.mask i.record.z i.record.bcst = true := by
  obtain ⟨-, -, -, -, -, hfields⟩ := reservedCombination_eq_false.1 h
  exact hfields

/-- Settles O37: each of the three combinations fails `evexFieldsOk`. -/
theorem reservedCombinationsFault : Obligations.ReservedCombinationsFault := by
  intro pre d s1 src imm8 mask z b s hreserved
  have hbad : evexFieldsOk src mask z b = false := by
    rw [Bool.eq_false_iff]
    intro hok
    obtain ⟨hk0, hz, hb⟩ := evexFieldsOk_iff.1 hok
    obtain ⟨hz1, hnone⟩ | ⟨hb1, r, rfl⟩ | hk := hreserved
    · exact hz hz1 hnone
    · exact Bool.false_ne_true (hb hb1)
    · exact hk0 hk
  have hfault : ∀ i : Instr, i.record.src2 = src → i.record.mask = mask → i.record.z = z → i.record.bcst = b →
      exec i s = .fault .invalidOpcode := by
    rintro i rfl rfl rfl rfl
    refine exec_of_reservedCombination (Bool.not_eq_false _ ▸ fun h => ?_)
    rw [evexFieldsOk_of_not_reserved h] at hbad
    cases hbad
  exact ⟨hfault _ rfl rfl rfl rfl, hfault _ rfl rfl rfl rfl, hfault _ rfl rfl rfl rfl⟩

/-- Every vector register that an instruction of this mode names is one its form can name (R23). -/
theorem namesZmm_lt_nvec {i : Instr} {c : Config} (h : reservedCombination c i = false) {n : VReg}
    (hn : Record.namesZmm i.record n) : n.toNat < nvec c i.form.isEvex := by
  obtain ⟨hdest, hsrc1, hsrc2, -⟩ := reservedCombination_eq_false.1 h
  obtain rfl | rfl | hreg := hn
  · exact hdest
  · exact hsrc1
  · rw [hreg] at hsrc2
    simpa [RM.regsBelow] using hsrc2

/-- Every general register that an instruction of this mode names is one the mode has (R76, R77). -/
theorem namesGpr_lt_ngpr {i : Instr} {c : Config} (h : reservedCombination c i = false) {m : MemOperand} {g : GReg}
    (hm : i.record.src2 = .mem m) (hg : MemOperand.namesGpr g m) : g.toNat < ngpr c.mode64 := by
  obtain ⟨-, -, hsrc2, -⟩ := reservedCombination_eq_false.1 h
  rw [hm] at hsrc2
  cases m with
  | base b disp =>
    obtain rfl := hg
    simpa [RM.regsBelow, MemOperand.gprsBelow] using hsrc2
  | ripRel disp => exact absurd hg id
  | sib b idx disp =>
    simp only [RM.regsBelow, MemOperand.gprsBelow, Bool.and_eq_true, decide_eq_true_eq] at hsrc2
    obtain ⟨hb, hidx⟩ := hsrc2
    obtain rfl | ⟨x, rfl, rfl⟩ := hg
    · exact hb
    · simpa using hidx
  | sibNoBase idx disp =>
    obtain ⟨x, rfl, rfl⟩ := hg
    simpa [RM.regsBelow, MemOperand.gprsBelow] using hsrc2

/-- How many vector registers a form can name: those that are there, 8 in 32-bit mode, 16 outside EVEX (R23, D4). -/
theorem nvec_le (c : Config) (evex : Bool) :
    nvec c evex ≤ c.nvec ∧ (c.mode64 = false → nvec c evex ≤ 8) ∧ (evex = false → nvec c evex ≤ 16) := by
  refine ⟨Nat.min_le_left .., fun h => ?_, fun h => ?_⟩
  · simp [nvec, nameableZmm, h]
  · refine (Nat.min_le_right ..).trans ?_
    subst h
    cases c.mode64 <;> decide

/-- Settles O38: an instruction of this mode names registers that are there, and no REX byte in 32-bit mode. -/
theorem registerNumberOutOfRangeFaults : Obligations.RegisterNumberOutOfRangeFaults := by
  intro i s hrange
  cases hres : reservedCombination s.cfg i with
  | true => exact exec_of_reservedCombination hres
  | false =>
    exfalso
    obtain ⟨-, -, -, hmask, hrex, -⟩ := reservedCombination_eq_false.1 hres
    obtain ⟨n, hn, hbound⟩ | ⟨n, hn, hbound⟩ | ⟨h32, ⟨m, g, hm, hg, hbound⟩ | ⟨pre, d, src, imm8, rfl⟩⟩ := hrange
    · have hlt := namesZmm_lt_nvec hres hn
      obtain ⟨hthere, hmode, hform⟩ := nvec_le s.cfg i.form.isEvex
      obtain h | ⟨h32, h⟩ | ⟨hevex, h⟩ := hbound
      · omega
      · have := hmode h32
        omega
      · have := hform hevex
        omega
    · exact absurd (hmask n hn) (Nat.not_lt.2 hbound)
    · have hlt := namesGpr_lt_ngpr hres hm hg
      rw [h32] at hlt
      exact absurd hlt (Nat.not_lt.2 hbound)
    · obtain h | h := hrex
      · rw [h32] at h; cases h
      · cases h

/-! ## Where the operand stops the instruction -/

/-- An instruction that passes the checks faults exactly as its second source does. -/
theorem exec_eq_fault_of_preflight {i : Instr} {s : State} {f : Fault} (h : preflight i s = .ok ()) :
    exec i s = .fault f ↔ source i s = .error (.fault f) := by
  rw [exec_eq_fault, h]
  simp

/-- A memory operand's fault is that of the instruction, where the checks pass. -/
theorem exec_of_operandRead_fault {i : Instr} {s : State} {m : MemOperand} {f : Fault} (hform : FormEnabled i s)
    (henv : NoEnvFault i s) (hm : i.record.src2 = .mem m) (h : operandRead i s m = .error (.fault f)) :
    exec i s = .fault f :=
  (exec_eq_fault_of_preflight (preflight_eq_ok.2 ⟨hform, henv⟩)).2 (source_eq_error.2 ⟨m, hm, h⟩)

/-- A memory operand's refusal is that of the instruction, where the checks pass. -/
theorem exec_of_operandRead_refused {i : Instr} {s : State} {m : MemOperand} {r : Refusal} (hform : FormEnabled i s)
    (henv : NoEnvFault i s) (hm : i.record.src2 = .mem m) (h : operandRead i s m = .error (.refused r)) :
    exec i s = .refused r :=
  exec_eq_refused.2 ⟨preflight_eq_ok.2 ⟨hform, henv⟩, .inl (source_eq_error.2 ⟨m, hm, h⟩)⟩

/-- The alignment condition of the legacy form, negated (R48). -/
theorem not_misaligned {i : Instr} {s : State} {m : MemOperand}
    (h : i.form = .shufps → (operandAddress i s m).toNat % 16 = 0) :
    ¬ (i.form = .shufps ∧ (operandAddress i s m).toNat % 16 ≠ 0) := fun ⟨hf, hne⟩ => hne (h hf)

/-- Settles O11: the second refusal of a memory operand. -/
theorem accessPastTopRefused : Obligations.AccessPastTopRefused :=
  fun _ _ _ hform henv hm haddr halign hpast => exec_of_operandRead_refused hform henv hm
    (operandRead_eq_refused.2 (.inr ⟨haddr, not_misaligned halign, hpast, rfl⟩))

/-- Settles O41: the first refusal of a memory operand. -/
theorem addressing16Refused : Obligations.Addressing16Refused :=
  fun _ _ _ hform henv hm h32 h67 => exec_of_operandRead_refused hform henv hm
    (operandRead_eq_refused.2 (.inl ⟨fun h => addressFormed_iff.1 h ⟨h32, h67⟩, rfl⟩))

/-- Settles O13: the last fault of a memory operand, which no field but its address decides. -/
theorem unmappedOperandFaults : Obligations.UnmappedOperandFaults :=
  fun _ _ _ hform henv hm haddr halign htop hunmapped => exec_of_operandRead_fault hform henv hm
    (operandRead_eq_fault.2 ⟨haddr, by rw [if_neg (not_misaligned halign)]; exact ⟨htop, hunmapped, rfl⟩⟩)

/-- Settles O35: the checks give rows 1 to 3 of the table, the memory operand rows 4 and 5. -/
theorem faultsAreThoseOfTheTable : Obligations.FaultsAreThoseOfTheTable := by
  intro i s f
  unfold FaultOf
  by_cases hform : FormEnabled i s
  · rw [if_neg fun h => not_formEnabled_iff.2 h hform]
    cases henv : envFault i.form.excClass i s with
    | some e =>
      have hpre : preflight i s = .error (.fault (.environment e)) := preflight_eq_error.2 (.inr ⟨hform, e, henv, rfl⟩)
      rw [exec_eq_fault, hpre]
      simp [eq_comm]
    | none =>
      rw [exec_eq_fault_of_preflight (preflight_eq_ok.2 ⟨hform, henv⟩), source_eq_error]
      cases hsrc : i.record.src2 with
      | reg r => simp
      | mem m =>
        exact ⟨fun ⟨m', hm', h⟩ => by cases hm'; exact operandRead_eq_fault.1 h, fun h => ⟨m, rfl, operandRead_eq_fault.2 h⟩⟩
  · rw [if_pos (not_formEnabled_iff.1 hform), exec_of_not_formEnabled hform]
    simp [eq_comm]

/-- Settles O14: row 4 of the table of faults, and the only row that gives this fault. -/
theorem misalignedLegacyFaults : Obligations.MisalignedLegacyFaults := by
  refine ⟨fun pre rex d m imm8 s => ?_, fun i s h => ?_⟩
  · intro i hform henv haddr halign
    exact exec_of_operandRead_fault hform henv rfl (operandRead_eq_fault.2 ⟨haddr, by rw [if_pos ⟨rfl, halign⟩]⟩)
  · obtain h | ⟨-, h⟩ := exec_eq_fault.1 h
    · obtain ⟨-, h⟩ | ⟨-, e, -, h⟩ := preflight_eq_error.1 h <;> cases h
    · obtain ⟨m, -, h⟩ := source_eq_error.1 h
      obtain ⟨-, h⟩ := operandRead_eq_fault.1 h
      by_cases hmis : i.form = .shufps ∧ (operandAddress i s m).toNat % 16 ≠ 0
      · exact hmis.1
      · rw [if_neg hmis] at h
        obtain ⟨-, -, h⟩ := h
        cases h

/-- Settles O40: the source is read, and only the last step of the instruction is left. -/
theorem textPastTopRefused : Obligations.TextPastTopRefused := by
  intro i s f hform henv hsource htop
  obtain ⟨b, hb, -⟩ := source_of_secondSourceIs hsource
  exact exec_eq_refused.2 ⟨preflight_eq_ok.2 ⟨hform, henv⟩, .inr ⟨⟨b, hb⟩, htop, rfl⟩⟩

/-- Settles O57: only the checks can fault, and EnvFault names no fault of an operand for a register. -/
theorem registerOperandFaults : Obligations.RegisterOperandFaults := by
  intro i s r f hreg h
  obtain h | ⟨-, h⟩ := exec_eq_fault.1 h
  · obtain ⟨-, h⟩ | ⟨-, e, henv, h⟩ := preflight_eq_error.1 h
    · cases h
      exact .inl rfl
    · cases h
      have hposs := envFault_possible henv
      rw [EnvFault.possible, hreg] at hposs
      cases e with
      | invalidOpcode => exact .inr (.inl rfl)
      | deviceNotAvailable => exact .inr (.inr rfl)
      | stackFault => cases hposs
      | generalProtection => cases hposs
      | pageFault code => cases hposs
      | alignmentCheck => cases hposs
  · obtain ⟨m, hm, -⟩ := source_eq_error.1 h
    rw [hreg] at hm
    cases hm

/-! ## No refusal is about a missing meaning -/

/-- An instruction is refused for one of three reasons (R172). -/
theorem refusal_of_exec {i : Instr} {s : State} {r : Refusal} (h : exec i s = .refused r) :
    r = .addressing16 ∨ r = .accessPastTop ∨ r = .textPastTop := by
  obtain ⟨-, h | ⟨-, -, rfl⟩⟩ := exec_eq_refused.1 h
  · obtain ⟨m, -, h⟩ := source_eq_error.1 h
    obtain ⟨-, rfl⟩ | ⟨-, -, -, rfl⟩ := operandRead_eq_refused.1 h
    · exact .inl rfl
    · exact .inr (.inl rfl)
  · exact .inr (.inr rfl)

/-- The fetch never says that an instruction is not modelled. -/
theorem fetch_ne_notModelled (s : State) (name : String) : fetch s ≠ .error (.refused (.notModelled name)) := by
  unfold fetch refuse
  split
  · nofun
  · cases s.cfg.mode64 with
    | false => nofun
    | true =>
      cases decode (textBytes s.text s.pc.toNat maxLen) with
      | ok i => nofun
      | error e => cases e <;> nofun

/-- Settles O33: neither the fetch nor an instruction answers so. -/
theorem noInstructionUnmodelled : Obligations.NoInstructionUnmodelled := by
  intro s name h
  rw [step] at h
  cases hfetch : fetch s with
  | ok i =>
    rw [hfetch] at h
    obtain h | h | h := refusal_of_exec h <;> cases h
  | error e =>
    rw [hfetch] at h
    cases e with
    | fault f => cases h
    | refused r =>
      cases h
      exact fetch_ne_notModelled s name hfetch

end Sys2Proof.Machine
end

section
/-! SUPPORT. The shuffle element by element: Select4 and Shuf128 on lanes given by their elements, the closed form of ShufVL, and
what of the sources and the controls each element depends on (40_shuffle_function.md R100, R103, R106, R109). -/

namespace Sys2Proof.Machine

-- Proofs are elaborated one after another: beside the frozen tests, elaborating these in parallel takes more threads than the
-- memory limit of the check has stacks for. No section variable is declared, so the option changes nothing else.
set_option deprecated.oldSectionVars true

/-! ## One lane -/

/-- Settles O1: the four elements of a lane. -/
theorem select4PicksElement : Obligations.Select4PicksElement := fun q3 q2 q1 q0 =>
  ⟨extract_four q3 q2 q1 q0 0 (by omega), extract_four q3 q2 q1 q0 1 (by omega),
    extract_four q3 q2 q1 q0 2 (by omega), extract_four q3 q2 q1 q0 3 (by omega)⟩

/-- Settles O5: Select4 of the four controls of each row. -/
theorem shuffleControlTable : Obligations.ShuffleControlTable := by
  intro a3 a2 a1 a0 b3 b2 b1 b0 sh
  obtain ⟨ha0, ha1, ha2, ha3⟩ := select4PicksElement a3 a2 a1 a0
  obtain ⟨hb0, hb1, hb2, hb3⟩ := select4PicksElement b3 b2 b1 b0
  simp only [BitVec.ofNat_eq_ofNat] at ha0 ha1 ha2 ha3 hb0 hb1 hb2 hb3
  simp only [sh, shuf128, BitVec.ofNat_eq_ofNat, BitVec.reduceExtractLsb', ha0, ha1, ha2, ha3, hb0, hb1, hb2, hb3, and_self]

/-- A half of Shuf128 from its two elements. -/
theorem half_shuf128 (a b : Lane) (imm8 : BitVec 8) :
    (shuf128 a b imm8).extractLsb' 0 64 = select4 a (imm8.extractLsb' 2 2) ++ select4 a (imm8.extractLsb' 0 2) ∧
    (shuf128 a b imm8).extractLsb' 64 64 = select4 b (imm8.extractLsb' 6 2) ++ select4 b (imm8.extractLsb' 4 2) := by
  unfold shuf128
  constructor
  · rw [BitVec.append_assoc, BitVec.cast_eq, extract_append_low _ _ _ _ (by omega), BitVec.extractLsb'_eq_self]
  · rw [extract_append_high _ _ _ _ (by omega), extract_append_high _ _ _ _ (by omega)]
    exact BitVec.extractLsb'_eq_self

/-- A slice of a slice that two words share, they share too. -/
theorem extract_congr {m : Nat} {x y : BitVec m} {k w : Nat} (h : x.extractLsb' k w = y.extractLsb' k w) (k' w' : Nat)
    (hin : k' + w' ≤ w) : x.extractLsb' (k + k') w' = y.extractLsb' (k + k') w' := by
  rw [← extract_extract x k w k' w' hin, h, extract_extract y k w k' w' hin]

/-- Settles O6: the elements of a half and their controls. -/
theorem halvesDependOnOwnSource : Obligations.HalvesDependOnOwnSource := by
  refine fun a a' b b' imm8 imm8' => ⟨fun h => ?_, fun h => ?_⟩
  · rw [(half_shuf128 ..).1, (half_shuf128 ..).1, extract_congr h 2 2 (by omega), extract_congr h 0 2 (by omega)]
  · rw [(half_shuf128 ..).2, (half_shuf128 ..).2, extract_congr h 2 2 (by omega), extract_congr h 0 2 (by omega)]

/-! ## Every lane -/

theorem selectControl_lt (imm8 : BitVec 8) (p : Nat) : selectControl imm8 p < 4 := (imm8.extractLsb' (2 * p) 2).isLt

/-- Settles O4: an element of its lane, and there an element of Shuf128. -/
theorem shuffleClosedForm : Obligations.ShuffleClosedForm := by
  intro vl a b imm8 e he
  obtain ⟨-, hlanes, -, hkl⟩ := vl_bits_eq vl
  have hp : e % 4 < 4 := Nat.mod_lt _ (by omega)
  rw [elem_eq_lane, lane_shufVL _ _ _ _ _ (by omega), if_pos (by omega), extract_shuf128 _ _ _ _ hp, shufElem]
  by_cases hlow : e % 4 < 2
  · rw [if_pos hlow, if_pos hlow]
    exact lane_elem _ _ _ (selectControl_lt ..)
  · rw [if_neg hlow, if_neg hlow]
    exact lane_elem _ _ _ (selectControl_lt ..)

/-- The elements of ShufVL, those above VL included. -/
theorem elem_shufVL (vl : VL) (a b : Vec) (imm8 : BitVec 8) (e : Nat) (he : e < 16) :
    elem (shufVL vl a b imm8) e = if e < vl.kl then shufElem (elem a) (elem b) imm8 e else 0 := by
  split
  · next h => exact shuffleClosedForm vl a b imm8 e h
  · next h => exact elem_shufVL_of_kl_le vl a b imm8 e (Nat.not_lt.1 h) he

/-- An element that the closed form picks lies in the same lane, below KL where the position does. -/
theorem pick_lt {vl : VL} {e : Nat} (he : e < vl.kl) (imm8 : BitVec 8) (p : Nat) :
    4 * (e / 4) + selectControl imm8 p < vl.kl := by
  obtain ⟨-, hlanes, -, -⟩ := vl_bits_eq vl
  have := selectControl_lt imm8 p
  omega

/-- The closed form sees of its second source only the elements below KL. -/
theorem shufElem_congr {vl : VL} {a b f : Nat → Elem} (hf : ∀ j, j < vl.kl → b j = f j) (imm8 : BitVec 8) {e : Nat}
    (he : e < vl.kl) : shufElem a b imm8 e = shufElem a f imm8 e := by
  rw [shufElem, shufElem, hf _ (pick_lt he ..)]

/-- Settles O8: the element that the closed form picks. -/
theorem elementsAreCopied : Obligations.ElementsAreCopied := by
  intro vl a b imm8 e he
  have hlt := selectControl_lt imm8 (e % 4)
  refine ⟨4 * (e / 4) + selectControl imm8 (e % 4), by omega, ?_⟩
  rw [shuffleClosedForm vl a b imm8 e he, shufElem]
  split <;> rfl

/-- The low two controls of a lane are in `imm8[3:0]`. -/
theorem selectControl_congr {imm8 imm8' : BitVec 8} (h : imm8.extractLsb' 0 4 = imm8'.extractLsb' 0 4) {p : Nat} (hp : p < 2) :
    selectControl imm8 p = selectControl imm8' p := by
  have := extract_congr h (2 * p) 2 (by omega)
  rw [Nat.zero_add] at this
  rw [selectControl, this, selectControl]

/-- Settles O7: the low two controls agree, and under the others every element is the word. -/
theorem broadcastIgnoresHighControls : Obligations.BroadcastIgnoresHighControls := by
  intro vl a w imm8 imm8' h
  obtain ⟨-, -, -, hkl⟩ := vl_bits_eq vl
  have hword : ∀ j, j < vl.kl → elem (broadcast vl w) j = w := fun j hj => by
    rw [elem_broadcast _ _ _ (by omega), if_pos hj]
  refine ext_elem fun e he => ?_
  rw [elem_shufVL _ _ _ _ _ he, elem_shufVL _ _ _ _ _ he]
  by_cases hk : e < vl.kl
  · rw [if_pos hk, if_pos hk, shufElem_congr hword imm8 hk, shufElem_congr hword imm8' hk, shufElem, shufElem]
    by_cases hlow : e % 4 < 2
    · rw [if_pos hlow, if_pos hlow, selectControl_congr h hlow]
    · rw [if_neg hlow, if_neg hlow]
  · rw [if_neg hk, if_neg hk]

end Sys2Proof.Machine
end

section
/-! SUPPORT. What each form leaves in its destination, element by element (41_shufps_sse.md R110, 42_vshufps_vex.md R120 to R122,
43_vshufps_evex.md R130 to R138), and how the forms compare. -/

namespace Sys2Proof.Machine

-- Proofs are elaborated one after another: beside the frozen tests, elaborating these in parallel takes more threads than the
-- memory limit of the check has stacks for. No section variable is declared, so the option changes nothing else.
set_option deprecated.oldSectionVars true

/-! ## The new value of the destination -/

/-- An instruction that is ready completes, with a second source of the elements that R131 gives it. -/
theorem exec_of_ready {i : Instr} {s : State} {f : Nat → Elem} (hready : Ready i s) (hf : SecondSourceIs i s f) :
    ∃ b, exec i s = .next (s.after i i.record.dest (newDest i s b)) ∧ ∀ j, j < i.form.vl.kl → elem b j = f j := by
  obtain ⟨b, hb, helem⟩ := source_of_secondSourceIs hf
  exact ⟨b, exec_eq_next.2 ⟨hready, b, hb, rfl⟩, helem⟩

/-- The low four elements of the legacy form's write are those of ShufVL at 128 bits. -/
theorem elem_newDest_shufps {i : Instr} (hform : i.form = .shufps) (s : State) (b : Vec) (e : Nat) :
    elem (newDest i s b) e =
      if e < 4 then shufElem (elem (s.readZmm i.record.dest)) (elem b) i.record.imm8 e
      else elem (s.readZmm i.record.dest) e := by
  rw [newDest, if_pos hform, elem_writeXmm]
  by_cases h : e < 4
  · rw [if_pos h, if_pos h, ← shuffleClosedForm .v128 _ _ _ _ h, elem_eq_lane, Nat.div_eq_of_lt h, Nat.mod_eq_of_lt h,
      lane_shufVL _ _ _ _ _ (by omega)]
    rfl
  · rw [if_neg h, if_neg h]

/-- Every vector register has at least 128 bits. -/
theorem four_le_kl (vl : VL) : 4 ≤ vl.kl := by cases vl <;> decide

/-- A form that is enabled is no longer than MAXVL, where MAXVL is at least what the features need (R5). -/
theorem Ready.kl_le_maxvl {i : Instr} {s : State} (h : Ready i s) (hfits : s.cfg.fitsForms = true) :
    i.form.vl.kl ≤ s.cfg.maxvl.kl := by
  obtain ⟨⟨-, henabled⟩, -, -⟩ := h
  exact Machine.kl_le_maxvl hfits henabled

/-- Cutting off at MAXVL keeps the elements of a value of a VL no longer than MAXVL. -/
theorem elem_low_maxvl {vl : VL} {c : Config} (hfit : vl.kl ≤ c.maxvl.kl) {v : Vec} {e : Nat}
    (hzero : vl.kl ≤ e → elem v e = 0) : elem (low c.maxvl.bits v) e = elem v e := by
  rw [elem_low]
  split
  · rfl
  · next h => exact (hzero (by omega)).symm

/-- What SHUFPS leaves (R110). -/
theorem result_shufps {i : Instr} {s : State} {f : Nat → Elem} (hform : i.form = .shufps) (hready : Ready i s)
    (hf : SecondSourceIs i s f) :
    ∃ w, exec i s = .next (s.after i i.record.dest w) ∧ ∀ e, e < 16 → elem w e =
      if e < 4 then shufElem (elem (s.readZmm i.record.dest)) f i.record.imm8 e else elem (s.readZmm i.record.dest) e := by
  obtain ⟨b, hexec, hb⟩ := exec_of_ready hready hf
  refine ⟨_, hexec, fun e _ => ?_⟩
  rw [hform] at hb
  rw [elem_newDest_shufps hform]
  by_cases h : e < 4
  · rw [if_pos h, if_pos h, shufElem_congr hb _ h]
  · rw [if_neg h, if_neg h]

/-- What a VEX form leaves, where its VL is no longer than MAXVL (R120). -/
theorem result_vex {i : Instr} {s : State} {f : Nat → Elem} (hlegacy : i.form ≠ .shufps) (hevex : i.form.isEvex = false)
    (hfit : i.form.vl.kl ≤ s.cfg.maxvl.kl) (hready : Ready i s) (hf : SecondSourceIs i s f) :
    ∃ w, exec i s = .next (s.after i i.record.dest w) ∧ ∀ e, e < 16 → elem w e =
      if e < i.form.vl.kl then shufElem (elem (s.readZmm i.record.src1)) f i.record.imm8 e else 0 := by
  obtain ⟨b, hexec, hb⟩ := exec_of_ready hready hf
  refine ⟨_, hexec, fun e he => ?_⟩
  rw [newDest, if_neg hlegacy, if_neg (by rw [hevex]; exact Bool.false_ne_true),
    elem_low_maxvl hfit fun hk => elem_shufVL_of_kl_le _ _ _ _ _ hk he, elem_shufVL _ _ _ _ _ he]
  by_cases h : e < i.form.vl.kl
  · rw [if_pos h, if_pos h, shufElem_congr hb _ h]
  · rw [if_neg h, if_neg h]

/-- The writemask, or every bit set where there is none (R135). -/
theorem writemask_eq (s : State) (mask : Option KReg) (j : Nat) :
    writemask s mask j = mask.all fun n => (s.readK n).getLsbD j := by cases mask <;> rfl

/-- What an EVEX form leaves, where its VL is no longer than MAXVL (R130 to R133). -/
theorem result_evex {i : Instr} {s : State} {f : Nat → Elem} (hevex : i.form.isEvex = true)
    (hfit : i.form.vl.kl ≤ s.cfg.maxvl.kl) (hready : Ready i s) (hf : SecondSourceIs i s f) :
    ∃ w, exec i s = .next (s.after i i.record.dest w) ∧ ∀ e, e < 16 → elem w e =
      if e < i.form.vl.kl then
        if i.record.mask.all (fun n => (s.readK n).getLsbD e) then
          shufElem (elem (s.readZmm i.record.src1)) f i.record.imm8 e
        else if i.record.z then 0 else elem (s.readZmm i.record.dest) e
      else 0 := by
  obtain ⟨b, hexec, hb⟩ := exec_of_ready hready hf
  refine ⟨_, hexec, fun e he => ?_⟩
  rw [newDest_of_isEvex hevex, elem_low_maxvl hfit fun hk => by rw [elem_blend _ _ _ _ _ _ he, if_neg (Nat.not_lt.2 hk)],
    elem_blend _ _ _ _ _ _ he, writemask_eq]
  by_cases h : e < i.form.vl.kl
  · rw [if_pos h, if_pos h, shuffleClosedForm _ _ _ _ _ h, shufElem_congr hb _ h]
  · rw [if_neg h, if_neg h]

/-! ## The eight constructors -/

/-- Settles O18. -/
theorem shufpsResult : Obligations.ShufpsResult := fun _ _ _ _ _ _ _ => result_shufps rfl

/-- Settles O19: 128 bits are no longer than MAXVL. -/
theorem vex128Result : Obligations.Vex128Result := by
  intro pre d s1 src imm8 s f i hi
  obtain rfl | rfl : i = _ ∨ i = _ := by simpa using hi
  · exact result_vex nofun rfl (four_le_kl _)
  · exact result_vex nofun rfl (four_le_kl _)

/-- Settles O20: an enabled form is no longer than MAXVL. -/
theorem vex256Result : Obligations.Vex256Result := by
  intro pre d s1 src imm8 s f i hi hfits hready
  have hfit := hready.kl_le_maxvl hfits
  obtain rfl | rfl : i = _ ∨ i = _ := by simpa using hi
  · exact result_vex nofun rfl hfit hready
  · exact result_vex nofun rfl hfit hready

/-- Settles O21: 128 bits are no longer than MAXVL. -/
theorem evex128Result : Obligations.Evex128Result := fun _ _ _ _ _ _ _ _ _ _ => result_evex rfl (four_le_kl _)

/-- Settles O22: an enabled form is no longer than MAXVL. -/
theorem evex256Result : Obligations.Evex256Result := fun _ _ _ _ _ _ _ _ _ _ hfits hready =>
  result_evex rfl (hready.kl_le_maxvl hfits) hready

/-- Settles O23: an enabled form is no longer than MAXVL, and every element of a vector value is below 16. -/
theorem evex512Result : Obligations.Evex512Result := by
  intro pre d s1 src imm8 mask z b s f i hfits hready hf
  obtain ⟨w, hexec, hw⟩ := result_evex rfl (hready.kl_le_maxvl hfits) hready hf
  exact ⟨w, hexec, fun e he => (hw e he).trans (if_pos he)⟩

/-! ## Forms compared -/

/-- A register second source has the elements of the register (R131). -/
theorem secondSourceIs_register {i : Instr} {s : State} {r : VReg} (h : i.record.src2 = .reg r) :
    SecondSourceIs i s (elem (s.readZmm r)) := by
  rw [SecondSourceIs, h]
  exact fun _ _ => rfl

/-- With one source for both halves each low element is the one of its control's number. -/
theorem shufElem_same_lt_four (a : Nat → Elem) (imm8 : BitVec 8) {e : Nat} (he : e < 4) :
    shufElem a a imm8 e = a (selectControl imm8 e) := by
  rw [shufElem, ite_self, Nat.mod_eq_of_lt he, Nat.div_eq_of_lt he, Nat.mul_zero, Nat.zero_add]

/-- Writing back what the destination holds leaves `pc` alone to advance. -/
theorem after_readZmm (s : State) (i : Instr) (d : VReg) :
    s.after i d (s.readZmm d) = s.setPc (s.pc + BitVec.ofNat 64 i.len) := by
  simp [State.after, State.setPc, State.readZmm]

/-- Settles O25: the controls of E4 are 0, 1, 2, 3, those of 1B are 3, 2, 1, 0. -/
theorem shufpsOnOneRegister : Obligations.ShufpsOnOneRegister := by
  refine fun pre rex d s => ⟨fun hready => ?_, fun hready => ?_⟩
  · have hcontrol : ∀ e, e < 4 → selectControl 0xE4 e = e := by decide
    obtain ⟨w, hexec, hw⟩ := shufpsResult pre rex d (.reg d) 0xE4 s _ hready (secondSourceIs_register rfl)
    have hkept : w = s.readZmm d := ext_elem fun e he => by
      rw [hw e he]
      split
      · next h => rw [shufElem_same_lt_four _ _ h, hcontrol e h]
      · rfl
    rw [hexec, hkept, after_readZmm]
  · have hcontrol : ∀ e, e < 4 → selectControl 0x1B e = 3 - e := by decide
    obtain ⟨w, hexec, hw⟩ := shufpsResult pre rex d (.reg d) 0x1B s _ hready (secondSourceIs_register rfl)
    refine ⟨_, hexec, fun e he => ?_⟩
    rw [readZmm_after_self, hw e (by omega), if_pos he, shufElem_same_lt_four _ _ he, hcontrol e he]

/-- Two values with the same elements in a lane have the same lane. -/
theorem lane_eq_of_elem {a b : Vec} {n : Nat} (h : ∀ p, p < 4 → elem a (4 * n + p) = elem b (4 * n + p)) :
    lane a n = lane b n := by
  ext i hi
  have hp := congrArg (fun v => v.getLsbD (i % 32)) (h (i / 32) (by omega))
  simp only [← lane_elem _ _ _ (show i / 32 < 4 by omega), BitVec.getLsbD_extractLsb', Nat.mod_lt i (show 0 < 32 by omega),
    decide_true, Bool.true_and, Nat.div_add_mod] at hp
  simpa only [BitVec.getLsbD_eq_getElem hi] using hp

/-- Settles O27: both leave the same shuffle below element 4. -/
theorem legacyAndVexDifferAbove128 : Obligations.LegacyAndVexDifferAbove128 := by
  intro pre rex d r imm8 s t t' hlegacy hvex
  obtain ⟨hready, -⟩ := exec_eq_next.1 hlegacy
  obtain ⟨hready', -⟩ := exec_eq_next.1 hvex
  obtain ⟨w, hexec, hw⟩ := shufpsResult pre rex d (.reg r) imm8 s _ hready (secondSourceIs_register rfl)
  obtain ⟨w', hexec', hw'⟩ :=
    vex128Result pre d d (.reg r) imm8 s _ _ (List.mem_cons_self ..) hready' (secondSourceIs_register rfl)
  obtain rfl := Host.Outcome.next.inj (hlegacy.symm.trans hexec)
  obtain rfl := Host.Outcome.next.inj (hvex.symm.trans hexec')
  rw [readZmm_after_self, readZmm_after_self]
  refine ⟨lane_eq_of_elem fun p hp => ?_, fun e hle he => ⟨?_, ?_⟩⟩
  · rw [hw _ (by omega), hw' _ (by omega), if_pos (by omega), if_pos (by omega)]
  · rw [hw e he, if_neg (by omega)]
  · rw [hw' e he, if_neg (by omega)]

/-- Two instructions shuffle the same operands at the same length. -/
def SameOperands (i i' : Instr) : Prop :=
  i'.form.vl = i.form.vl ∧ i'.record.dest = i.record.dest ∧ i'.record.src1 = i.record.src1 ∧
    i'.record.src2 = i.record.src2 ∧ i'.record.imm8 = i.record.imm8

/-- A memory second source without broadcast is the full-width read at the operand's address. -/
theorem memRead_of_source {i : Instr} {s : State} {m : MemOperand} {b : Vec} (hm : i.record.src2 = .mem m)
    (hbcst : i.record.bcst = false) (h : source i s = .ok b) :
    memRead s (operandAddress i s m) i.form.vl.bytes = .ok b := by
  have hread : operandRead i s m = .ok b := by
    rw [source_eq, hm, hbcst] at h
    rcases hv : operandRead i s m with e | v
    · simp [hv, Except.map] at h
    · simpa [hv, Except.map] using h
  obtain ⟨-, -, htop, hholds⟩ := operandRead_eq_ok.1 hread
  have hsize : Record.operandSize i.record = i.form.vl.bytes := by rw [Record.operandSize, hbcst]; rfl
  rw [hsize] at htop hholds
  exact (memRead_eq_ok (hsize ▸ operandSize_le i.record)).2 ⟨htop, hholds⟩

/-- The second sources of two instructions on the same operands, at the same address, are the same where both have one. -/
theorem source_unique {i i' : Instr} {s : State} {b b' : Vec} (hsame : SameOperands i i') (hbcst : i.record.bcst = false)
    (hbcst' : i'.record.bcst = false) (haddr : ∀ m, i.record.src2 = .mem m → operandAddress i s m = operandAddress i' s m)
    (hb : source i s = .ok b) (hb' : source i' s = .ok b') : b = b' := by
  obtain ⟨hvl, -, -, hsrc2, -⟩ := hsame
  cases hsrc : i.record.src2 with
  | reg r =>
    rw [source_eq, hsrc] at hb
    rw [source_eq, hsrc2, hsrc, hvl] at hb'
    exact Except.ok.inj (hb.symm.trans hb')
  | mem m =>
    have hread := memRead_of_source hsrc hbcst hb
    have hread' := memRead_of_source (hsrc2.trans hsrc) hbcst' hb'
    rw [haddr m hsrc, ← hvl] at hread
    exact Except.ok.inj (hread.symm.trans hread')

/-- Under a full mask the masked write-back is the new value. -/
theorem blend_full {vl : VL} (z : Bool) {tmp : Vec} (htmp : low vl.bits tmp = tmp) (old : Vec) :
    blend vl (fun _ => true) z tmp old = tmp := by
  refine ext_elem fun e he => ?_
  rw [elem_blend _ _ _ _ _ _ he, if_pos rfl, ← elem_low, htmp]

/-- Without writemask and broadcast an EVEX form leaves the vector registers that the VEX form on the same operands leaves. -/
theorem zmm_eq_of_sameOperands {i i' : Instr} {s t t' : State} (hsame : SameOperands i i') (hevex : i.form.isEvex = true)
    (hlegacy : i'.form ≠ .shufps) (hvex : i'.form.isEvex = false) (hmask : i.record.mask = none) (hbcst : i.record.bcst = false)
    (haddr : ∀ m, i.record.src2 = .mem m → operandAddress i s m = operandAddress i' s m)
    (h : exec i s = .next t) (h' : exec i' s = .next t') : t.zmm = t'.zmm := by
  obtain ⟨-, b, hb, rfl⟩ := exec_eq_next.1 h
  obtain ⟨-, b', hb', rfl⟩ := exec_eq_next.1 h'
  obtain rfl := source_unique hsame hbcst (bcst_evex i' hvex) haddr hb hb'
  obtain ⟨hvl, hdest, hsrc1, -, himm⟩ := hsame
  have hnew : newDest i s b = newDest i' s b := by
    rw [newDest_of_isEvex hevex, hmask, newDest, if_neg hlegacy, if_neg (by rw [hvex]; exact Bool.false_ne_true), hvl, hsrc1, himm]
    exact congrArg _ (blend_full _ (shufVLLaneByLane ..).2.1 _)
  rw [after_zmm, after_zmm, hdest, hnew]

/-- Settles O26: every pair shuffles the same operands. -/
theorem evexUnmaskedEqualsVex : Obligations.EvexUnmaskedEqualsVex := by
  intro pre pre' d s1 src imm8 z s t t'
  have hall : ∀ e v : Instr, e.form.isEvex = true → e.record.mask = none → e.record.bcst = false → e.record.src2 = src →
      v.form ≠ .shufps → v.form.isEvex = false → SameOperands e v →
      (∀ m, src = .mem m → operandAddress e s m = operandAddress v s m) →
      exec e s = .next t → exec v s = .next t' → t.zmm = t'.zmm := by
    rintro e v hevex hmask hbcst rfl hlegacy hvex hsame
    exact zmm_eq_of_sameOperands hsame hevex hlegacy hvex hmask hbcst
  refine ⟨fun v hv => ?_, fun v hv => ?_⟩
  · obtain rfl | rfl : v = _ ∨ v = _ := by simpa using hv
    · exact hall _ _ rfl rfl rfl rfl nofun rfl ⟨rfl, rfl, rfl, rfl, rfl⟩
    · exact hall _ _ rfl rfl rfl rfl nofun rfl ⟨rfl, rfl, rfl, rfl, rfl⟩
  · obtain rfl | rfl : v = _ ∨ v = _ := by simpa using hv
    · exact hall _ _ rfl rfl rfl rfl nofun rfl ⟨rfl, rfl, rfl, rfl, rfl⟩
    · exact hall _ _ rfl rfl rfl rfl nofun rfl ⟨rfl, rfl, rfl, rfl, rfl⟩

end Sys2Proof.Machine
end

section
/-! SUPPORT. What a memory operand holds, and what of the state an instruction does not see: bytes beyond its operand, mask bits
from KL up, and every content where only the outcome is asked for (20_memory.md R41, R45, R46; 10_state.md R26;
40_shuffle_function.md R106). -/

namespace Sys2Proof.Machine

-- Proofs are elaborated one after another: beside the frozen tests, elaborating these in parallel takes more threads than the
-- memory limit of the check has stacks for. No section variable is declared, so the option changes nothing else.
set_option deprecated.oldSectionVars true

/-! ## Memory operands -/

/-- Settles O9: what a memory read that answers says, both ways. -/
theorem memReadLittleEndian : Obligations.MemReadLittleEndian := fun _ _ _ _ => memRead_eq_ok

/-- A word, zero-extended to a vector value, has the slices of the word. -/
theorem extract_setWidth (x : Elem) {k w : Nat} (h : k + w ≤ 32) :
    (x.setWidth 512 : Vec).extractLsb' k w = x.extractLsb' k w := by
  ext i hi
  simp only [BitVec.getElem_extractLsb', BitVec.getLsbD_setWidth, show k + i < 512 by omega, decide_true, Bool.true_and]

/-- A memory that holds a value holds its elements, four bytes each. -/
theorem MemHolds.elem {m : Memory} {a n : Nat} {v : Vec} (h : MemHolds m a n v) {j : Nat} (hj : 4 * j + 4 ≤ n) :
    MemHolds m (a + 4 * j) 4 ((Machine.elem v j).setWidth 512) := by
  obtain ⟨-, hbytes⟩ := h
  refine ⟨?_, fun k hk => ?_⟩
  · rw [BitVec.toNat_setWidth_of_le (by omega)]
    exact (Machine.elem v j).isLt
  · rw [Nat.add_assoc, hbytes _ (by omega), extract_setWidth _ (by omega), Machine.elem, extract_extract _ _ _ _ _ (by omega)]
    congr 2
    omega

/-- Settles O10: the element, zero-extended, is what the four bytes hold. -/
theorem memoryElementOrder : Obligations.MemoryElementOrder := by
  intro s vl ea v j h hj hwrap
  obtain ⟨-, -, hbytes, hkl⟩ := vl_bits_eq vl
  obtain ⟨htop, hholds⟩ := (memRead_eq_ok (by omega)).1 h
  have haddr : (ea + BitVec.ofNat 64 (4 * j)).toNat = ea.toNat + 4 * j := by
    rw [BitVec.toNat_add, BitVec.toNat_ofNat]
    omega
  refine ⟨(elem v j).setWidth 512, (memRead_eq_ok (by omega)).2 ⟨by omega, ?_⟩, ?_⟩
  · rw [haddr]
    exact hholds.elem (by omega)
  · exact (extract_setWidth _ (by omega)).trans BitVec.extractLsb'_eq_self

/-- Two memories that agree on some bytes give the same read of them. -/
theorem readBytes_congr {m m' : Memory} {a n : Nat} (h : ∀ k, k < n → Memory.read m' (a + k) = Memory.read m (a + k)) :
    Memory.readBytes m' a n = Memory.readBytes m a n := by
  induction n generalizing a with
  | zero => rfl
  | succ n ih =>
    have htail := ih (a := a + 1) fun k hk => by
      rw [Nat.add_assoc, Nat.add_comm 1 k]
      exact h (k + 1) (by omega)
    rw [Memory.readBytes, Memory.readBytes, htail, show Memory.read m' a = Memory.read m a from h 0 (by omega)]

/-! ## What an instruction sees of the state -/

/-- The premises of completing see of a state its configuration, its `pc` and the answer of EnvFault. -/
theorem ready_congr {i : Instr} {s s' : State} (henv : SameEnvFault i s s') (hcfg : s'.cfg = s.cfg) (hpc : s'.pc = s.pc) :
    Ready i s' ↔ Ready i s := by
  rw [SameEnvFault] at henv
  simp only [Ready, FormEnabled, NoEnvFault, TextBelowTop, hcfg, hpc, henv]

/-- The address of an operand does not depend on the contents of vector registers, opmask registers and memory. -/
theorem operandAddress_contents (i : Instr) (s : State) (m : MemOperand) (zmm' : Vector Vec 32) (k' : Vector (BitVec 64) 8)
    (mem' : Memory) : operandAddress i { s with zmm := zmm', k := k', mem := mem' } m = operandAddress i s m := rfl

/-- The second source does not depend on memory beyond the bytes of its operand. -/
theorem source_mem_congr {i : Instr} {s : State} {mem' : Memory}
    (h : ∀ m, i.record.src2 = .mem m → ∀ k, k < Record.operandSize i.record →
      Memory.read mem' ((operandAddress i s m).toNat + k) = Memory.read s.mem ((operandAddress i s m).toNat + k)) :
    source i { s with mem := mem' } = source i s := by
  rw [source_eq, source_eq]
  cases hsrc : i.record.src2 with
  | reg r => rfl
  | mem m =>
    have hbytes := readBytes_congr (h m hsrc)
    have haddr : operandAddress i { s with mem := mem' } m = operandAddress i s m := operandAddress_contents ..
    have hread : operandRead i { s with mem := mem' } m = operandRead i s m := by
      rw [operandRead_eq, operandRead_eq, haddr, memRead, memRead, hbytes]
    exact congrArg (Except.map _) hread

/-- Settles O12: with `b = 1` the operand is four bytes. -/
theorem broadcastReadsFourBytes : Obligations.BroadcastReadsFourBytes := by
  intro i s m mem' hsrc hbcst henv hagree
  have hsize : Record.operandSize i.record = 4 := by rw [Record.operandSize, if_pos hbcst]
  have hsource : source i { s with mem := mem' } = source i s := source_mem_congr fun m' hm' k hk => by
    obtain rfl : m = m' := RM.mem.inj (hsrc.symm.trans hm')
    exact hagree k (hsize ▸ hk)
  have hpre : preflight i { s with mem := mem' } = preflight i s := preflight_congr rfl henv
  refine ⟨fun t h => ?_, fun f h => ?_, fun r h => ?_⟩
  · obtain ⟨hready, b, hb, rfl⟩ := exec_eq_next.1 h
    exact exec_eq_next.2 ⟨(ready_congr henv rfl rfl).2 hready, b, hsource.trans hb, rfl⟩
  · rw [exec_eq_fault, hpre, hsource]
    exact exec_eq_fault.1 h
  · rw [exec_eq_refused, hpre, hsource]
    exact exec_eq_refused.1 h

/-- The destination sees of a writemask only its bits below KL. -/
theorem newDest_mask_congr {i : Instr} {s : State} {k' : Vector (BitVec 64) 8} (b : Vec)
    (h : ∀ n : KReg, (k'[n.toNat]'n.isLt).extractLsb' 0 i.form.vl.kl = (s.readK n).extractLsb' 0 i.form.vl.kl) :
    newDest i { s with k := k' } b = newDest i s b := by
  have hmask : ∀ j, j < i.form.vl.kl →
      writemask { s with k := k' } i.record.mask j = writemask s i.record.mask j := fun j hj => by
    cases i.record.mask with
    | none => rfl
    | some n =>
      have hbit := congrArg (fun v => v.getLsbD j) (h n)
      simpa [writemask, State.readK, hj] using hbit
  cases hevex : i.form.isEvex with
  | true =>
    rw [newDest_of_isEvex hevex, newDest_of_isEvex hevex]
    exact congrArg _ (blend_congr hmask (fun _ _ => rfl) fun _ _ => rfl)
  | false =>
    have hne : ¬ i.form.isEvex = true := hevex ▸ Bool.false_ne_true
    by_cases hform : i.form = .shufps
    · rw [newDest, newDest, if_pos hform, if_pos hform]
      rfl
    · rw [newDest, newDest, if_neg hform, if_neg hform, if_neg hne, if_neg hne]
      rfl

/-- Settles O28: the destination sees only mask bits below KL, and nothing else of an instruction sees an opmask register. -/
theorem maskBitsAboveKLIgnored : Obligations.MaskBitsAboveKLIgnored := by
  intro i s t k' hk henv h
  obtain ⟨hready, b, hb, rfl⟩ := exec_eq_next.1 h
  have hsource : source i { s with k := k' } = source i s := rfl
  refine exec_eq_next.2 ⟨(ready_congr henv rfl rfl).2 hready, b, hsource.trans hb, ?_⟩
  rw [newDest_mask_congr b hk]
  rfl

/-- What stops a second source depends on which addresses are mapped, not on any content. -/
theorem source_error_congr {i : Instr} {s : State} {zmm' : Vector Vec 32} {k' : Vector (BitVec 64) 8} {mem' : Memory}
    (hmapped : ∀ a, Memory.read mem' a = none ↔ Memory.read s.mem a = none) (e : Stop) :
    source i s = .error e ↔ source i { s with zmm := zmm', k := k', mem := mem' } = .error e := by
  have hunmapped : ∀ a n, Unmapped mem' a n ↔ Unmapped s.mem a n := fun a n => by simp only [Unmapped, hmapped]
  rw [source_eq_error, source_eq_error]
  refine exists_congr fun m => and_congr_right fun _ => ?_
  cases e with
  | fault f =>
    rw [operandRead_eq_fault, operandRead_eq_fault, operandAddress_contents, hunmapped]
    rfl
  | refused r =>
    rw [operandRead_eq_refused, operandRead_eq_refused, operandAddress_contents]
    rfl

/-- Two computations that stop alike answer alike. -/
theorem exists_ok_congr {α ε : Type} {x y : Except ε α} (h : ∀ e, x = .error e ↔ y = .error e) :
    (∃ a, x = .ok a) ↔ ∃ a, y = .ok a := by
  cases x with
  | error e => rw [(h e).1 rfl]
  | ok a =>
    cases y with
    | error e => exact absurd ((h e).2 rfl) nofun
    | ok a' => exact ⟨fun _ => ⟨a', rfl⟩, fun _ => ⟨a, rfl⟩⟩

/-- An instruction completes exactly where its premises hold and its second source has a value. -/
theorem exists_next_iff {i : Instr} {s : State} : (∃ t, exec i s = .next t) ↔ Ready i s ∧ ∃ b, source i s = .ok b := by
  refine ⟨fun ⟨t, h⟩ => ?_, fun ⟨hready, b, hb⟩ => ⟨_, exec_eq_next.2 ⟨hready, b, hb, rfl⟩⟩⟩
  obtain ⟨hready, b, hb, -⟩ := exec_eq_next.1 h
  exact ⟨hready, b, hb⟩

/-- Settles O32: the checks see no content, and what stops the second source sees none. -/
theorem outcomeIgnoresElementValues : Obligations.OutcomeIgnoresElementValues := by
  intro i s zmm' k' mem' hmapped s' henv
  have herr : ∀ e, source i s = .error e ↔ source i s' = .error e := source_error_congr hmapped
  have hok := exists_ok_congr herr
  have hpre : preflight i s' = preflight i s := preflight_congr rfl henv
  refine ⟨fun t h => ?_, ?_, fun f => ?_, fun r => ?_⟩
  · obtain ⟨-, b, -, rfl⟩ := exec_eq_next.1 h
    rfl
  · rw [exists_next_iff, exists_next_iff, hok, ready_congr henv rfl rfl]
  · rw [exec_eq_fault, exec_eq_fault, hpre, herr]
  · rw [exec_eq_refused, exec_eq_refused, hpre, herr, hok]
    rfl

end Sys2Proof.Machine
end

section
/-! SUPPORT. The address of a memory operand: its form, its displacement, the address-size byte and the segment overrides
(30_encoding.md R76 to R78, R88). -/

namespace Sys2Proof.Machine

-- Proofs are elaborated one after another: beside the frozen tests, elaborating these in parallel takes more threads than the
-- memory limit of the check has stacks for. No section variable is declared, so the option changes nothing else.
set_option deprecated.oldSectionVars true

/-! ## The effective address -/

/-- The scaled index is a product (30_encoding.md R67). -/
theorem indexValue_some (s : State) (x : Index) :
    indexValue s (some x) = s.readGpr x.reg * BitVec.ofNat 64 (2 ^ x.ss.toNat) := by
  apply BitVec.eq_of_toNat_eq
  simp [indexValue, Nat.shiftLeft_eq]

/-- The effective address is the sum of the addressing form in 64-bit mode without an address-size byte (R77). -/
theorem effectiveAddress_eq_rawAddress {s : State} {pre : List LegacyPrefix} (h64 : s.cfg.mode64 = true)
    (h67 : addressSizeByte pre = false) (len n : Nat) (m : MemOperand) :
    effectiveAddress s pre len n m = rawAddress s len n m := by
  rw [effectiveAddress, h64, h67]
  rfl

/-- With an address-size byte it is the low 32 bits of that sum (R77). -/
theorem effectiveAddress_eq_low32 {pre : List LegacyPrefix} (h67 : addressSizeByte pre = true) (s : State) (len n : Nat)
    (m : MemOperand) : effectiveAddress s pre len n m = ((rawAddress s len n m).setWidth 32).setWidth 64 := by
  rw [effectiveAddress, h67, Bool.not_true, Bool.and_false]
  rfl

/-- The low 32 bits of a scaled index come from those of its register. -/
theorem indexValue_low32_congr {s s' : State} (hgpr : ∀ r, (s.readGpr r).setWidth 32 = (s'.readGpr r).setWidth 32)
    (idx : Option Index) : (indexValue s idx).setWidth 32 = (indexValue s' idx).setWidth 32 := by
  cases idx with
  | none => rfl
  | some x =>
    rw [indexValue_some, indexValue_some, BitVec.setWidth_mul _ _ (by decide), BitVec.setWidth_mul _ _ (by decide), hgpr]

/-- The low 32 bits of the address come from those of the registers. -/
theorem rawAddress_low32_congr {s s' : State} (hcfg : s.cfg = s'.cfg) (hpc : s.pc.setWidth 32 = s'.pc.setWidth 32)
    (hgpr : ∀ r, (s.readGpr r).setWidth 32 = (s'.readGpr r).setWidth 32) (len n : Nat) (m : MemOperand) :
    (rawAddress s len n m).setWidth 32 = (rawAddress s' len n m).setWidth 32 := by
  have hadd : ∀ x y : Addr, (x + y).setWidth 32 = x.setWidth 32 + y.setWidth 32 := fun x y => BitVec.setWidth_add x y (by decide)
  have hidx := indexValue_low32_congr hgpr
  cases m with
  | base b disp => simp only [rawAddress, hadd, hgpr]
  | ripRel disp =>
    rw [rawAddress, rawAddress, hcfg]
    split
    · simp only [hadd, hpc]
    · rfl
  | sib b idx disp => simp only [rawAddress, hadd, hgpr, hidx]
  | sibNoBase idx disp => simp only [rawAddress, hadd, hidx]

/-- Settles O16: a sum's low 32 bits are those of its terms'. -/
theorem addressSizeUsesLow32 : Obligations.AddressSizeUsesLow32 := by
  intro s s' pre len n m h67 hcfg hpc hgpr
  rw [effectiveAddress_eq_low32 h67, effectiveAddress_eq_low32 h67]
  refine ⟨congrArg _ (rawAddress_low32_congr hcfg hpc hgpr len n m), ?_⟩
  rw [BitVec.toNat_setWidth_of_le (by decide)]
  exact BitVec.isLt _

/-! ## The segment -/

/-- No segment that an operand has by default counts in 64-bit mode. -/
theorem defaultSeg_not_counts (m : MemOperand) : segCounts true (MemOperand.defaultSeg m) = false := by
  have hstack : ∀ b : GReg, segCounts true (if b = 4 ∨ b = 5 then .ss else .ds) = false := fun b => by split <;> rfl
  cases m with
  | base b disp => exact hstack b
  | ripRel disp => rfl
  | sib b idx disp => exact hstack b
  | sibNoBase idx disp => rfl

/-- In 64-bit mode no base is added where no override counts. -/
theorem segmentBase_eq_zero {s : State} {pre : List LegacyPrefix} (h64 : s.cfg.mode64 = true) (hpre : overrides true pre = [])
    (m : MemOperand) : segmentBase s pre m = 0 := by
  have hseg : segmentInUse true pre m = MemOperand.defaultSeg m := by rw [segmentInUse, hpre]
  rw [segmentBase, h64, hseg, defaultSeg_not_counts]
  rfl

/-- In 64-bit mode the linear address is the sum of the addressing form, where no prefix changes it (R76). -/
theorem linearAddress_eq_rawAddress {s : State} {pre : List LegacyPrefix} (h64 : s.cfg.mode64 = true)
    (h67 : addressSizeByte pre = false) (hpre : overrides true pre = []) (len n : Nat) (m : MemOperand) :
    linearAddress s pre len n m = rawAddress s len n m := by
  rw [linearAddress, effectiveAddress_eq_rawAddress h64 h67, segmentBase_eq_zero h64 hpre]
  exact BitVec.add_zero _

/-- Settles O15: the sum of each form, a missing term 0. -/
theorem addressingForms : Obligations.AddressingForms := by
  intro s pre len n h64 h67 hpre
  have hnone : indexValue s none = 0 := rfl
  have habsent : dispValue n .absent = 0 := rfl
  have h8 : ∀ v, dispValue n (.d8 v) = v.signExtend 64 * BitVec.ofNat 64 n := fun _ => rfl
  have h32 : ∀ v, dispValue n (.d32 v) = v.signExtend 64 := fun _ => rfl
  simp [linearAddress_eq_rawAddress h64 h67 hpre, rawAddress, hnone, habsent, h8, h32, indexValue_some, h64]

/-- One segment override, which is no address-size byte, leaves the effective address as it is. -/
theorem effectiveAddress_seg (s : State) (g : Seg) (len n : Nat) (m : MemOperand) :
    effectiveAddress s [.seg g] len n m = effectiveAddress s [] len n m := rfl

/-- In 64-bit mode the one override FS or GS adds its base. -/
theorem segmentBase_seg {s : State} (h64 : s.cfg.mode64 = true) {g : Seg} (hg : segCounts true g = true) (m : MemOperand) :
    segmentBase s [.seg g] m = s.readSeg g := by
  have hover : overrides true [.seg g] = [g] := by simp [overrides, LegacyPrefix.seg?, hg]
  have hseg : segmentInUse true [.seg g] m = g := by rw [segmentInUse, hover]; rfl
  rw [segmentBase, h64, hseg]
  exact if_pos hg

/-- Settles O17: of one override only an FS or GS counts. -/
theorem segmentOverrides : Obligations.SegmentOverrides := by
  intro s len n m h64
  have hbare : linearAddress s [] len n m = effectiveAddress s [] len n m := by
    rw [linearAddress, segmentBase_eq_zero h64 rfl]
    exact BitVec.add_zero _
  refine ⟨fun g hfs hgs => ?_, ?_, ?_⟩
  · have hover : overrides true [.seg g] = [] := by simp [overrides, LegacyPrefix.seg?, segCounts, hfs, hgs]
    rw [linearAddress, linearAddress, segmentBase_eq_zero h64 hover, segmentBase_eq_zero h64 rfl, effectiveAddress_seg]
  · rw [hbare, linearAddress, segmentBase_seg h64 rfl, effectiveAddress_seg]
    rfl
  · rw [hbare, linearAddress, segmentBase_seg h64 rfl, effectiveAddress_seg]
    rfl

end Sys2Proof.Machine
end
